-- ==== Sys2Proof/Word.lean ====
section
/-! DEFINITION. The words of the machine (spec/00_scope.md R3, R9): a byte of 8 bits and an unsigned value of 32 bits. -/

namespace Sys2Proof

/-- A byte of the image, bits 7..0 (R3, R9). -/
abbrev Byte := BitVec 8

/-- An unsigned 32-bit value: a register, an argument, an immediate or the result (R3). -/
abbrev Word := BitVec 32

/-- `u32(n) = n mod 2^32` for any integer `n` (R9). -/
def u32 (n : Int) : Word := BitVec.ofInt 32 n

/-- `i32(v)`: the two's-complement reading of a 32-bit value (R9). -/
def i32 (v : Word) : Int := v.toInt

end Sys2Proof
end

