-- ==== Sys2Proof/Machine/Flags.lean ====
section
/-! DEFINITION. The ALU. The hardware has no flags (spec/10_state.md R19): an operation yields its 32-bit result and nothing
else; a carry or a borrow is discarded (spec/41_add_sub_xor.md R106). Each result is computed exactly and narrowed at the end. -/

namespace Sys2Proof.Machine

/-- `u32(a + b)` (41 R100, R106). -/
def aluAdd (a b : Word) : Word := u32 ((a.toNat : Int) + b.toNat)

/-- `u32(a - b)` (41 R102, R106). -/
def aluSub (a b : Word) : Word := u32 ((a.toNat : Int) - b.toNat)

/-- `a ^ b`, bit by bit (41 R104). -/
def aluXor (a b : Word) : Word := a ^^^ b

/-- The source, unchanged (42 R110). The old destination is not used. -/
def aluMov (_old b : Word) : Word := b

/-- `u32(0 - a)` (43 R115). -/
def aluNeg (a : Word) : Word := u32 (0 - (a.toNat : Int))

/-- `0xFFFFFFFF - a` (43 R116, 00 R9). -/
def aluNot (a : Word) : Word := u32 (0xFFFFFFFF - (a.toNat : Int))

end Sys2Proof.Machine
end

