-- ==== Sys2Proof/Syntax.lean ====
section
/-! DEFINITION. The instructions as data: registers, operands, operation kinds, and one constructor of `Instr` per row of
spec/opcode_table.json (eleven instruction kinds, two marker rows, fifteen rows of faulting encodings; log 11). -/

namespace Sys2Proof

/-- The eight register slots `x[0] .. x[7]` in index order (10 R10). A register index is 0..7 by construction (R12). -/
inductive Reg where
  | eax | ecx | edx | ebx | esp | ebp | esi | edi
deriving DecidableEq, Repr

/-- An operand: a register, or an immediate kept as its 32-bit pattern (10 R16; `i32` is a storage type only, 90 C3). -/
inductive Operand where
  | reg (r : Reg)
  | imm (v : Word)
deriving DecidableEq, Repr

/-- The eleven operation kinds (00 R1). -/
inductive OpKind where
  | addRegImm | addRegReg | movRegImm | movRegReg | negReg | notReg | popReg | subRegImm | subRegReg | xorRegImm | xorRegReg
deriving DecidableEq, Repr

/-- One constructor per row of the opcode table, in the table's order. -/
inductive Instr where
  /-- The 20-byte marker at the start of a run (00 R4, 40 R84). -/
  | prolog
  /-- The 4-byte marker that ends a run (00 R5, 40 R85). -/
  | epilog
  /-- `add <dst>, <src>` (41 R100). -/
  | addRegReg (dst src : Reg)
  /-- `sub <dst>, <src>` (41 R102). -/
  | subRegReg (dst src : Reg)
  /-- `xor <dst>, <src>` (41 R104). -/
  | xorRegReg (dst src : Reg)
  /-- `mov <dst>, <src>` (42 R110). -/
  | movRegReg (dst src : Reg)
  /-- `add <dst>, <imm>` (41 R101). -/
  | addRegImm (dst : Reg) (imm : Word)
  /-- `sub <dst>, <imm>` (41 R103). -/
  | subRegImm (dst : Reg) (imm : Word)
  /-- `xor <dst>, <imm>` (41 R105). -/
  | xorRegImm (dst : Reg) (imm : Word)
  /-- `not <dst>` (43 R116). -/
  | notReg (dst : Reg)
  /-- `neg <dst>` (43 R115). -/
  | negReg (dst : Reg)
  /-- `pop <dst>`: the next argument (44 R120). -/
  | popReg (dst : Reg)
  /-- `mov <dst>, <imm>` (42 R111). -/
  | movRegImm (dst : Reg) (imm : Word)
  /-- Byte 0x01 with a ModRM byte whose mod is 0 or 1; `x` is its bits 6:0 (30 R57). -/
  | memLow01 (x : BitVec 7)
  /-- Byte 0x01 with mod = 2; `x` is the ModRM byte's bits 5:0 (30 R57). -/
  | memTwo01 (x : BitVec 6)
  /-- Byte 0x29, mod 0 or 1 (30 R57). -/
  | memLow29 (x : BitVec 7)
  /-- Byte 0x29, mod = 2 (30 R57). -/
  | memTwo29 (x : BitVec 6)
  /-- Byte 0x31, mod 0 or 1 (30 R57). -/
  | memLow31 (x : BitVec 7)
  /-- Byte 0x31, mod = 2 (30 R57). -/
  | memTwo31 (x : BitVec 6)
  /-- Byte 0x81, mod 0 or 1 (30 R57). -/
  | memLow81 (x : BitVec 7)
  /-- Byte 0x81, mod = 2 (30 R57). -/
  | memTwo81 (x : BitVec 6)
  /-- Byte 0x89, mod 0 or 1 (30 R57). -/
  | memLow89 (x : BitVec 7)
  /-- Byte 0x89, mod = 2 (30 R57). -/
  | memTwo89 (x : BitVec 6)
  /-- Byte 0xF7, mod 0 or 1 (30 R57). -/
  | memLowF7 (x : BitVec 7)
  /-- Byte 0xF7, mod = 2 (30 R57). -/
  | memTwoF7 (x : BitVec 6)
  /-- Byte 0x81, mod = 3, a sub-op other than 0, 5, 6 (30 R61). -/
  | badSub81 (sub rm : BitVec 3)
  /-- Byte 0xF7, mod = 3, a sub-op other than 2, 3 (30 R62). -/
  | badSubF7 (sub rm : BitVec 3)
  /-- Any other first byte (30 R65). -/
  | otherByte (op : Byte)
deriving DecidableEq, Repr

end Sys2Proof
end

