-- ==== Sys2Proof/WellFormed.lean ====
section
/-! DEFINITION. Which terms of `Instr` stand for an encoding of the hardware: the two sub-op checks and the first-byte check
(spec/30_encoding.md R61, R62, R65). Every other operand is in range by its type (10 R12). -/

namespace Sys2Proof

/-- The 22 first bytes of the decode table (30 R60, R65). -/
def supportedByte (op : Byte) : Bool :=
  op == 0x01#8 || op == 0x29#8 || op == 0x31#8 || (0x58#8 ≤ op && op ≤ 0x5F#8) || op == 0x81#8 || op == 0x89#8 ||
    (0xB8#8 ≤ op && op ≤ 0xBF#8) || op == 0xF7#8

/-- The sub-ops of 0x81 that are instructions: 0 add, 5 sub, 6 xor (30 R61). -/
def supportedSub81 (sub : BitVec 3) : Bool := sub == 0#3 || sub == 5#3 || sub == 6#3

/-- The sub-ops of 0xF7 that are instructions: 2 not, 3 neg (30 R62). -/
def supportedSubF7 (sub : BitVec 3) : Bool := sub == 2#3 || sub == 3#3

/-- The well-formed instructions: a fault row holds only the encodings that no instruction row takes. -/
def Instr.wf : Instr → Bool
  | .prolog | .epilog => true
  | .addRegReg _ _ | .subRegReg _ _ | .xorRegReg _ _ | .movRegReg _ _ => true
  | .addRegImm _ _ | .subRegImm _ _ | .xorRegImm _ _ | .movRegImm _ _ => true
  | .notReg _ | .negReg _ | .popReg _ => true
  | .memLow01 _ | .memTwo01 _ | .memLow29 _ | .memTwo29 _ | .memLow31 _ | .memTwo31 _ => true
  | .memLow81 _ | .memTwo81 _ | .memLow89 _ | .memTwo89 _ | .memLowF7 _ | .memTwoF7 _ => true
  | .badSub81 sub _ => !supportedSub81 sub
  | .badSubF7 sub _ => !supportedSubF7 sub
  | .otherByte op => !supportedByte op

end Sys2Proof
end

