-- ==== Sys2Proof/Decode.lean ====
section
/-! DEFINITION. The two patterns, the bit fields, the decoder and the encoder (spec/30_encoding.md; 00 R4, R5). The decoder is
total on byte lists: it answers an instruction, a row of faulting encodings, or that a fetch finds too few bytes. -/

namespace Sys2Proof

/-- `PROLOG`, the 20 bytes that must stand where a run starts (00 R4). -/
def prologBytes : List Byte :=
  [0x89, 0xE0, 0x53, 0x57, 0x56, 0x29, 0xE0, 0x83, 0xF8, 0x18] ++
    [0x74, 0x07, 0x8B, 0x44, 0x24, 0x10, 0x50, 0xEB, 0x01, 0x51]

/-- `EPILOG`, the 4 bytes that end a run (00 R5). -/
def epilogBytes : List Byte := [0x5E, 0x5F, 0x5B, 0xC3]

/-- The register that a 3-bit code names (10 R10). -/
def Reg.ofBits (c : BitVec 3) : Reg :=
  if c = 0#3 then .eax else if c = 1#3 then .ecx else if c = 2#3 then .edx else if c = 3#3 then .ebx
  else if c = 4#3 then .esp else if c = 5#3 then .ebp else if c = 6#3 then .esi else .edi

/-- The 3-bit code of a register (10 R10). -/
def Reg.bits : Reg → BitVec 3
  | .eax => 0#3 | .ecx => 1#3 | .edx => 2#3 | .ebx => 3#3 | .esp => 4#3 | .ebp => 5#3 | .esi => 6#3 | .edi => 7#3

/-- ModRM `mod`, bits 7:6 (30 R55). -/
def modField (m : Byte) : BitVec 2 := m.extractLsb' 6 2

/-- ModRM `reg`, bits 5:3 (30 R55). -/
def regField (m : Byte) : BitVec 3 := m.extractLsb' 3 3

/-- ModRM `rm`, bits 2:0; also the register of a one-byte or OI opcode (30 R55, R51, R53). -/
def rmField (m : Byte) : BitVec 3 := m.extractLsb' 0 3

/-- Bits 7:3 of an opcode byte: `01011` for PopReg, `10111` for MovRegImm (30 R51, R53). -/
def opHigh (op : Byte) : BitVec 5 := op.extractLsb' 3 5

/-- The little-endian value of a byte list, the lowest position least significant (20 R32, R33). -/
def leNat : List Byte → Nat
  | [] => 0
  | b :: bs => b.toNat + 2 ^ 8 * leNat bs

/-- `imm32 = b0 + 2^8*b1 + 2^16*b2 + 2^24*b3` (30 R58). -/
def imm32 (b0 b1 b2 b3 : Byte) : Word := BitVec.ofNat 32 (leNat [b0, b1, b2, b3])

/-- The four bytes of an immediate, byte 0 least significant (30 R53, R54). -/
def imm32Bytes (v : Word) : List Byte :=
  [v.extractLsb' 0 8, v.extractLsb' 8 8, v.extractLsb' 16 8, v.extractLsb' 24 8]

/-- Why a byte list decodes to no instruction: the fetch of `n` bytes, `off` bytes after the first byte of the instruction,
passes the end of what there is (20 R32). -/
inductive DecodeStop where
  | short (off n : Nat)
deriving DecidableEq, Repr

/-- `ModRM(start, op)`: the ModRM byte; a mod other than 3 is the opcode's MemoryOperand row at once (30 R57, R59). -/
def decodeModRM (rest : List Byte) (low : BitVec 7 → Instr) (two : BitVec 6 → Instr)
    (direct : BitVec 3 → BitVec 3 → List Byte → Except DecodeStop Instr) : Except DecodeStop Instr :=
  match rest with
  | [] => .error (.short 1 1)
  | m :: tail =>
    if modField m = 3#2 then direct (regField m) (rmField m) tail
    else if modField m = 2#2 then .ok (two (m.extractLsb' 0 6))
    else .ok (low (m.extractLsb' 0 7))

/-- The four immediate bytes at offset `off` of the instruction (30 R58, 20 R35). -/
def decodeImm (off : Nat) (rest : List Byte) (k : Word → Instr) : Except DecodeStop Instr :=
  match rest with
  | b0 :: b1 :: b2 :: b3 :: _ => .ok (k (imm32 b0 b1 b2 b3))
  | _ => .error (.short off 4)

/-- `decode()` on the bytes from the opcode byte on (30 R59, R60): a faulting encoding is its row of the table. -/
def decode (bs : List Byte) : Except DecodeStop Instr :=
  match bs with
  | [] => .error (.short 0 1)
  | op :: rest =>
    if op = 0x01#8 then
      decodeModRM rest .memLow01 .memTwo01 fun reg rm _ => .ok (.addRegReg (.ofBits rm) (.ofBits reg))
    else if op = 0x29#8 then
      decodeModRM rest .memLow29 .memTwo29 fun reg rm _ => .ok (.subRegReg (.ofBits rm) (.ofBits reg))
    else if op = 0x31#8 then
      decodeModRM rest .memLow31 .memTwo31 fun reg rm _ => .ok (.xorRegReg (.ofBits rm) (.ofBits reg))
    else if opHigh op = 0b01011#5 then .ok (.popReg (.ofBits (rmField op)))
    else if op = 0x81#8 then
      decodeModRM rest .memLow81 .memTwo81 fun reg rm tail =>
        if reg = 0#3 then decodeImm 2 tail (.addRegImm (.ofBits rm))
        else if reg = 5#3 then decodeImm 2 tail (.subRegImm (.ofBits rm))
        else if reg = 6#3 then decodeImm 2 tail (.xorRegImm (.ofBits rm))
        else .ok (.badSub81 reg rm)
    else if op = 0x89#8 then
      decodeModRM rest .memLow89 .memTwo89 fun reg rm _ => .ok (.movRegReg (.ofBits rm) (.ofBits reg))
    else if opHigh op = 0b10111#5 then decodeImm 1 rest (.movRegImm (.ofBits (rmField op)))
    else if op = 0xF7#8 then
      decodeModRM rest .memLowF7 .memTwoF7 fun reg rm _ =>
        if reg = 2#3 then .ok (.notReg (.ofBits rm))
        else if reg = 3#3 then .ok (.negReg (.ofBits rm))
        else .ok (.badSubF7 reg rm)
    else .ok (.otherByte op)

/-- What stands at an instruction boundary: the epilog compare needs four bytes and comes first, then `decode()`
(40 R80, R85). -/
def decodeBoundary (bs : List Byte) : Except DecodeStop Instr :=
  if bs.length < 4 then .error (.short 0 4)
  else if bs.take 4 = epilogBytes then .ok .epilog
  else decode bs

/-- The number of bytes `decode()` reads for the instruction or the faulting encoding (30 R50, R68; the table's `length` and
`bytes_read`); for a marker, the length of its pattern. -/
def Instr.size : Instr → Nat
  | .prolog => 20
  | .epilog => 4
  | .popReg _ | .otherByte _ => 1
  | .addRegReg _ _ | .subRegReg _ _ | .xorRegReg _ _ | .movRegReg _ _ | .notReg _ | .negReg _ => 2
  | .movRegImm _ _ => 5
  | .addRegImm _ _ | .subRegImm _ _ | .xorRegImm _ _ => 6
  | .memLow01 _ | .memTwo01 _ | .memLow29 _ | .memTwo29 _ | .memLow31 _ | .memTwo31 _ => 2
  | .memLow81 _ | .memTwo81 _ | .memLow89 _ | .memTwo89 _ | .memLowF7 _ | .memTwoF7 _ => 2
  | .badSub81 _ _ | .badSubF7 _ _ => 2

/-- The ModRM byte `64*mod + 8*reg + rm` (30 R55). -/
def modRM (mod : BitVec 2) (reg rm : BitVec 3) : Byte := mod ++ reg ++ rm

/-- The bytes of an instruction in stream order, from the encoding rules (30 R50 to R64, 00 R4, R5); for a faulting encoding,
the bytes that are read. -/
def encode : Instr → List Byte
  | .prolog => prologBytes
  | .epilog => epilogBytes
  | .addRegReg d r => [0x01#8, modRM 3#2 r.bits d.bits]
  | .subRegReg d r => [0x29#8, modRM 3#2 r.bits d.bits]
  | .xorRegReg d r => [0x31#8, modRM 3#2 r.bits d.bits]
  | .movRegReg d r => [0x89#8, modRM 3#2 r.bits d.bits]
  | .addRegImm d v => 0x81#8 :: modRM 3#2 0#3 d.bits :: imm32Bytes v
  | .subRegImm d v => 0x81#8 :: modRM 3#2 5#3 d.bits :: imm32Bytes v
  | .xorRegImm d v => 0x81#8 :: modRM 3#2 6#3 d.bits :: imm32Bytes v
  | .notReg d => [0xF7#8, modRM 3#2 2#3 d.bits]
  | .negReg d => [0xF7#8, modRM 3#2 3#3 d.bits]
  | .popReg d => [0b01011#5 ++ d.bits]
  | .movRegImm d v => (0b10111#5 ++ d.bits) :: imm32Bytes v
  | .memLow01 x => [0x01#8, 0#1 ++ x]
  | .memTwo01 x => [0x01#8, 2#2 ++ x]
  | .memLow29 x => [0x29#8, 0#1 ++ x]
  | .memTwo29 x => [0x29#8, 2#2 ++ x]
  | .memLow31 x => [0x31#8, 0#1 ++ x]
  | .memTwo31 x => [0x31#8, 2#2 ++ x]
  | .memLow81 x => [0x81#8, 0#1 ++ x]
  | .memTwo81 x => [0x81#8, 2#2 ++ x]
  | .memLow89 x => [0x89#8, 0#1 ++ x]
  | .memTwo89 x => [0x89#8, 2#2 ++ x]
  | .memLowF7 x => [0xF7#8, 0#1 ++ x]
  | .memTwoF7 x => [0xF7#8, 2#2 ++ x]
  | .badSub81 sub rm => [0x81#8, modRM 3#2 sub rm]
  | .badSubF7 sub rm => [0xF7#8, modRM 3#2 sub rm]
  | .otherByte op => [op]

/-- The longest instruction, in bytes (30 R50). -/
def maxInstrBytes : Nat := 6

/-- The `n` bytes of a table word, first byte first. The table numbers a row's bits with the row's bytes read as one number,
the first byte most significant (its `fixed` and `fields`; log 15). -/
def wordBytes : Nat → Nat → List Byte
  | 0, _ => []
  | n + 1, w => BitVec.ofNat 8 (w >>> (8 * n)) :: wordBytes n w

/-- A table word laid out as the image holds it, zero bytes after it up to the longest instruction. -/
def tableBytes (nbits w : Nat) : List Byte :=
  let bs := wordBytes (nbits / 8) w
  bs ++ List.replicate (maxInstrBytes - bs.length) 0

/-- Whether a table word is the 20 bytes of the prolog, the one row that is compared at the start of a run and not at an
instruction boundary (40 R84). -/
def isPrologWord (nbits w : Nat) : Bool := nbits == 160 && wordBytes 20 w == prologBytes

/-- The instruction that the decoder reads from a word of the opcode table: the prolog where a run starts, every other row at an
instruction boundary. -/
def decodeTableWord (nbits w : Nat) : Option Instr :=
  if isPrologWord nbits w then some .prolog
  else match decodeBoundary (tableBytes nbits w) with
    | .ok i => some i
    | .error _ => none

end Sys2Proof
end

