-- ==== Sys2Proof/Config.lean ====
section
/-! DEFINITION. What an implementation fixes (spec/00_scope.md R6; the widths of R3 are in Word.lean, the eight registers in Syntax.lean).
The machine has no free value: no rule of the spec leaves an instruction's result open, so no opaque constant stands here. A
position of the image is a plain `Nat`: the spec gives it no width and no wrap-around (10 R26, 92 D3; log 9). -/

namespace Sys2Proof

/-- A relative virtual address: an open parameter of the spec with the default "unsigned 32-bit" (R6, 92 D6), which the model
takes. DESIGN CHOICE (log 8), safe: the core only compares an RVA and copies it into a record. -/
abbrev Rva := BitVec 32

end Sys2Proof
end

