-- ==== Sys2Proof/Machine/State.lean ====
section
/-! DEFINITION. The state of one Emulator instance as plain data (spec/10_state.md), the platform's parameters, the host's
pending request, the two kinds of stop, and the state after power-on. -/

namespace Sys2Proof.Machine

/-- The register file, one field per slot `x[0] .. x[7]` (R10). All slots are alike (R11). -/
structure Regs where
  eax : Word
  ecx : Word
  edx : Word
  ebx : Word
  esp : Word
  ebp : Word
  esi : Word
  edi : Word
deriving DecidableEq, Repr

/-- The byte image: `IMAGE_LEN` and `IMG` (20 R31). `cells` lists the bytes that are not zero, by rising position; a position
below `extent` that is not listed holds zero (log 5). -/
structure Memory where
  extent : Nat
  cells  : List Host.Cell
deriving DecidableEq, Repr

/-- The run status (R17). -/
inductive Status where
  | idle | running | done | faulted
deriving DecidableEq, Repr

/-- The seven fault kinds (60 R130). -/
inductive FaultKind where
  | missingProlog | unsupportedOpcode | memoryOperand | argumentSupplyExhausted | fetchOutOfBounds | addressResolveFault
  | internalError
deriving DecidableEq, Repr

/-- A fault record: the kind with its diagnostic fields (R18, 60 R131 to R137). The code is a function of the kind
(`FaultKind.code`). -/
inductive FaultRecord where
  | missingProlog (startRva : Rva) (pos : Nat)
  | unsupportedOpcode (pos : Nat) (op : Byte) (sub : Option (BitVec 3))
  | memoryOperand (pos : Nat) (op modrm : Byte)
  | argumentSupplyExhausted (pos : Nat) (argidx : Nat)
  | fetchOutOfBounds (addr : Nat) (n : Nat)
  | addressResolveFault (startRva : Rva)
  | internalError
deriving DecidableEq, Repr

/-- The host's transaction `emulate(start_rva, args)` (40 R81). -/
structure Request where
  startRva : Rva
  args     : List Word
deriving DecidableEq, Repr

/-- The outcome of a run: a result or a fault record, never both (40 R81, 60 R142). -/
inductive RunOutcome where
  | done (result : Word)
  | faulted (record : FaultRecord)
deriving DecidableEq, Repr

/-- The state. `mem` and `resolve` are the platform's parameters, which no step changes; `request` is the model's own field for
the host's input (log 2). -/
structure State where
  /-- The register file (R10). -/
  regs    : Regs
  /-- The byte-cursor position (R13, R26). -/
  pc      : Nat
  /-- The argument supply of the run (R15). -/
  args    : List Word
  /-- The argument cursor (R15). -/
  argidx  : Nat
  /-- The run status (R17). -/
  status  : Status
  /-- The result latch, valid when `status` is `done` (R17). -/
  result  : Word
  /-- The fault record, valid when `status` is `faulted` (R18). -/
  fault   : FaultRecord
  /-- `IMG` and `IMAGE_LEN` (00 R6, 20 R31). -/
  mem     : Memory
  /-- `Resolve` as the list of the RVAs it maps; the first entry of an RVA counts (00 R6, 20 R40; log 7). -/
  resolve : List (Rva × Nat)
  /-- The `emulate` the host has issued and the core has not yet accepted (log 2). -/
  request : Option Request
deriving DecidableEq, Repr

/-- Why the machine stops. The spec's faults are no stops: each is a next state with `status = faulted` (60 R141). -/
inductive Fault where
  /-- Raised by `step` in IDLE, DONE and FAULTED when the host has issued no `emulate`: these states have no step of their own
  (40 R94; log 3). Safe: the machine stands still where the hardware would wait. -/
  | noRequest
deriving DecidableEq, Repr

/-- What the model gives no meaning. -/
inductive Refusal where
  /-- Raised by `exec` for an instruction without a meaning; no arm does so. Safe. -/
  | notModelled (mnemonic : String)
  /-- Raised by `step` when the host issues `emulate` while a run is in progress: the spec gives it no transition
  (40 R94, 60 R150, 93 U5; log 4). Safe: nothing is claimed of such a launch. -/
  | emulateWhileRunning
deriving DecidableEq, Repr

/-- All eight slots zero: the register file at the start of every run (R22). -/
def Regs.zero : Regs :=
  { eax := 0, ecx := 0, edx := 0, ebx := 0, esp := 0, ebp := 0, esi := 0, edi := 0 }

/-- An image without a byte. -/
def Memory.empty : Memory := { extent := 0, cells := [] }

/-- Power-on (R23, 70 R160): `status = IDLE`. The spec leaves every other component unspecified; the values here are DESIGN
CHOICES (log 10), as are an image and a `Resolve` that are empty until the platform supplies them (log 6). Unsafe: a proof could
lean on them. -/
def State.reset : State :=
  { regs := Regs.zero, pc := 0, args := [], argidx := 0, status := .idle, result := 0, fault := .internalError,
    mem := Memory.empty, resolve := [], request := none }

end Sys2Proof.Machine
end

