-- ==== Sys2Proof/Machine/Ops.lean ====
section
/-! DEFINITION. The named operations over the image, the registers, the cursor and the status: the reads of spec/20_memory.md,
the pattern matcher (40 R80), taking a fault (60 R141), the run-start reset (10 R22), and what the platform and the host do. -/

namespace Sys2Proof.Machine

/-- The outcome of a meaning or of a step. -/
abbrev Result := Host.Outcome State Fault Refusal

/-! ### The image -/

/-- What a position that is not listed holds (log 5). -/
def unlistedByte : Byte := 0

/-- The byte listed for a position, or `unlistedByte`. -/
def lookupCell : List Host.Cell → Nat → Byte
  | [], _ => unlistedByte
  | c :: cs, a => if c.1 = a then c.2 else lookupCell cs a

/-- `IMG[a]`; none at a position outside `0 .. IMAGE_LEN-1` (20 R31). -/
def Memory.byteAt (m : Memory) (a : Nat) : Option Byte :=
  if a < m.extent then some (lookupCell m.cells a) else none

/-- The bytes from `a` on, at most `n`, as far as the image reaches. -/
def Memory.window (m : Memory) (a : Nat) : Nat → List Byte
  | 0 => []
  | n + 1 =>
    match m.byteAt a with
    | some b => b :: m.window (a + 1) n
    | none => []

/-- `MemRead(addr, n)`: the bounds test covers the whole access, then the bytes are assembled little-endian (20 R32, R33). -/
def memRead (m : Memory) (addr : Nat) (n : Nat) : Except FaultRecord Nat :=
  if addr + n > m.extent then .error (.fetchOutOfBounds addr n) else .ok (leNat (m.window addr n))

/-- The canonical form of the image: positions strictly rising, no listed byte equal to what an unlisted position holds, every
listed position inside the extent (log 5). -/
def Memory.wf (m : Memory) : Bool :=
  decide (m.cells.Pairwise fun c d => c.1 < d.1) && m.cells.all fun c => c.2 != unlistedByte && decide (c.1 < m.extent)

/-- The listing with the byte of one position replaced; the canonical form is kept. -/
def setCell : List Host.Cell → Nat → Byte → List Host.Cell
  | [], a, b => if b = unlistedByte then [] else [(a, b)]
  | c :: cs, a, b =>
    if a < c.1 then (if b = unlistedByte then c :: cs else (a, b) :: c :: cs)
    else if a = c.1 then (if b = unlistedByte then cs else (a, b) :: cs)
    else c :: setCell cs a b

/-- The platform's image with one byte replaced, the extent raised to hold it. No instruction does this (20 R36); it builds the
image a run is given. -/
def Memory.put (m : Memory) (a : Nat) (b : Byte) : Memory :=
  { extent := max m.extent (a + 1), cells := setCell m.cells a b }

/-- The platform's image with `bs` placed from position `a` on. -/
def Memory.load (m : Memory) (a : Nat) : List Byte → Memory
  | [] => m
  | b :: bs => (m.put a b).load (a + 1) bs

/-- `Resolve(rva)`: a partial mapping, by the first entry of the RVA (20 R40). -/
def resolveRva : List (Rva × Nat) → Rva → Option Nat
  | [], _ => none
  | e :: es, rva => if e.1 = rva then some e.2 else resolveRva es rva

/-! ### Registers and cursors -/

/-- `x[i]`, read (10 R10). -/
def Regs.get (x : Regs) : Reg → Word
  | .eax => x.eax | .ecx => x.ecx | .edx => x.edx | .ebx => x.ebx
  | .esp => x.esp | .ebp => x.ebp | .esi => x.esi | .edi => x.edi

/-- `x[i] <- v` (10 R10): one slot changes, none aliases another (R11). -/
def Regs.set (x : Regs) (r : Reg) (v : Word) : Regs :=
  match r with
  | .eax => { x with eax := v } | .ecx => { x with ecx := v }
  | .edx => { x with edx := v } | .ebx => { x with ebx := v }
  | .esp => { x with esp := v } | .ebp => { x with ebp := v }
  | .esi => { x with esi := v } | .edi => { x with edi := v }

/-- Reading a register of the state. -/
def State.reg (s : State) (r : Reg) : Word := s.regs.get r

/-- Writing a register of the state. -/
def State.setReg (s : State) (r : Reg) (v : Word) : State := { s with regs := s.regs.set r v }

/-- The cursor moved over `n` bytes that have been read (20 R45: "All reads advance the cursor"). -/
def State.advance (s : State) (n : Nat) : State := { s with pc := s.pc + n }

/-- `seek(position)` (20 R45). -/
def State.seek (s : State) (p : Nat) : State := { s with pc := p }

/-- `tell()` (20 R45). -/
def State.tell (s : State) : Nat := s.pc

/-- The argument cursor moved past the value just consumed (10 R15). -/
def State.takeArg (s : State) : State := { s with argidx := s.argidx + 1 }

/-! ### The pattern matcher -/

/-- `matches(P)`: the lookahead compare, which never moves the cursor and faults where the image is too short (40 R80). -/
def peek (pattern : List Byte) (s : State) : Except FaultRecord Bool :=
  if s.pc + pattern.length > s.mem.extent then .error (.fetchOutOfBounds s.pc pattern.length)
  else .ok (s.mem.window s.pc pattern.length == pattern)

/-! ### Faults -/

/-- The kind of a record (10 R18). -/
def FaultRecord.kind : FaultRecord → FaultKind
  | .missingProlog _ _ => .missingProlog
  | .unsupportedOpcode _ _ _ => .unsupportedOpcode
  | .memoryOperand _ _ _ => .memoryOperand
  | .argumentSupplyExhausted _ _ => .argumentSupplyExhausted
  | .fetchOutOfBounds _ _ => .fetchOutOfBounds
  | .addressResolveFault _ => .addressResolveFault
  | .internalError => .internalError

/-- The code of a kind (60 R130). -/
def FaultKind.code : FaultKind → Nat
  | .missingProlog => 1
  | .unsupportedOpcode => 2
  | .memoryOperand => 3
  | .argumentSupplyExhausted => 4
  | .fetchOutOfBounds => 5
  | .addressResolveFault => 6
  | .internalError => 7

/-- `raise F(info)`, taking a fault: the record is written and the run is over. Nothing is saved, since nothing resumes
(60 R141). There is no return from a fault (60 R143). -/
def State.raise (s : State) (f : FaultRecord) : State := { s with fault := f, status := .faulted }

/-- The outcome the host reads once a run has ended (40 R81, 60 R142); none in IDLE and RUNNING. -/
def State.outcome (s : State) : Option RunOutcome :=
  match s.status with
  | .idle => none
  | .running => none
  | .done => some (.done s.result)
  | .faulted => some (.faulted s.fault)

/-! ### Start and end of a run -/

/-- The run-start reset: registers and argument cursor zeroed, the run's arguments taken from the accepted request
(10 R22, 40 R83). -/
def State.runReset (s : State) (args : List Word) : State :=
  { s with regs := Regs.zero, args := args, argidx := 0, request := none }

/-- The prolog has matched and been skipped: the run is in progress (40 R84). -/
def State.begin (s : State) : State := { s with status := .running }

/-- The end of a run: `result <- x[0]; status <- DONE` (40 R86). -/
def State.finish (s : State) : State := { s with result := s.reg .eax, status := .done }

/-- The host issues `emulate(start_rva, args)` (40 R81). -/
def State.submit (s : State) (q : Request) : State := { s with request := some q }

end Sys2Proof.Machine
end

