-- ==== Sys2Proof/Machine/Operands.lean ====
section
/-! DEFINITION. The operand forms: reading a source and writing a destination (spec/40_run_loop.md R88, R89), and an instruction
seen as `{kind, operand1, operand2}` (spec/10_state.md R16). -/

namespace Sys2Proof.Machine

/-- The source value of an operand: a register's slot, or the immediate as an unsigned 32-bit value (R88). -/
def operandValue (s : State) : Operand → Word
  | .reg r => s.reg r
  | .imm v => v

/-- The destination write: a register's slot; through an immediate it is the fatal InternalError, which no instruction reaches
(R89, 60 R137; log 16). -/
def writeOperand (o : Operand) (v : Word) (s : State) : Result :=
  match o with
  | .reg r => .next (s.setReg r v)
  | .imm _ => .next (s.raise .internalError)

/-- The operation kind of an instruction; none for the markers and the faulting encodings (10 R16). -/
def instrKind : Instr → Option OpKind
  | .addRegReg _ _ => some .addRegReg
  | .subRegReg _ _ => some .subRegReg
  | .xorRegReg _ _ => some .xorRegReg
  | .movRegReg _ _ => some .movRegReg
  | .addRegImm _ _ => some .addRegImm
  | .subRegImm _ _ => some .subRegImm
  | .xorRegImm _ _ => some .xorRegImm
  | .notReg _ => some .notReg
  | .negReg _ => some .negReg
  | .popReg _ => some .popReg
  | .movRegImm _ _ => some .movRegImm
  | .prolog | .epilog => none
  | .memLow01 _ | .memTwo01 _ | .memLow29 _ | .memTwo29 _ | .memLow31 _ | .memTwo31 _ => none
  | .memLow81 _ | .memTwo81 _ | .memLow89 _ | .memTwo89 _ | .memLowF7 _ | .memTwoF7 _ => none
  | .badSub81 _ _ | .badSubF7 _ _ | .otherByte _ => none

/-- Operand 1, the destination: a register for every kind (10 R16, 30 R60). -/
def operand1 : Instr → Option Operand
  | .addRegReg d _ | .subRegReg d _ | .xorRegReg d _ | .movRegReg d _ => some (.reg d)
  | .addRegImm d _ | .subRegImm d _ | .xorRegImm d _ | .movRegImm d _ => some (.reg d)
  | .notReg d | .negReg d | .popReg d => some (.reg d)
  | .prolog | .epilog => none
  | .memLow01 _ | .memTwo01 _ | .memLow29 _ | .memTwo29 _ | .memLow31 _ | .memTwo31 _ => none
  | .memLow81 _ | .memTwo81 _ | .memLow89 _ | .memTwo89 _ | .memLowF7 _ | .memTwoF7 _ => none
  | .badSub81 _ _ | .badSubF7 _ _ | .otherByte _ => none

/-- Operand 2, the source: a register or an immediate for the two-operand kinds, absent for the others (10 R16, 30 R60). -/
def operand2 : Instr → Option Operand
  | .addRegReg _ r | .subRegReg _ r | .xorRegReg _ r | .movRegReg _ r => some (.reg r)
  | .addRegImm _ v | .subRegImm _ v | .xorRegImm _ v | .movRegImm _ v => some (.imm v)
  | .notReg _ | .negReg _ | .popReg _ => none
  | .prolog | .epilog => none
  | .memLow01 _ | .memTwo01 _ | .memLow29 _ | .memTwo29 _ | .memLow31 _ | .memTwo31 _ => none
  | .memLow81 _ | .memTwo81 _ | .memLow89 _ | .memTwo89 _ | .memLowF7 _ | .memTwoF7 _ => none
  | .badSub81 _ _ | .badSubF7 _ _ | .otherByte _ => none

end Sys2Proof.Machine
end

