-- ==== Sys2Proof/Machine/Alu.lean ====
section
/-! DEFINITION. The ten register instructions: ADD, SUB, XOR, MOV, NEG, NOT (spec/41_add_sub_xor.md, 42_mov.md, 43_neg_not.md).
A meaning is one iteration of the loop after the epilog test: the cursor moves over the instruction's bytes (10 R14), both
operand values are read, then the destination is written (40 R87). -/

namespace Sys2Proof.Machine

/-- A two-operand instruction of `n` bytes: `write(operand1, f(value(operand1), value(operand2)))` (40 R87). -/
def execBinary (f : Word → Word → Word) (n : Nat) (dst src : Operand) (s : State) : Result :=
  writeOperand dst (f (operandValue s dst) (operandValue s src)) (s.advance n)

/-- A one-operand instruction of `n` bytes: `write(operand1, f(value(operand1)))` (40 R87). -/
def execUnary (f : Word → Word) (n : Nat) (dst : Operand) (s : State) : Result :=
  writeOperand dst (f (operandValue s dst)) (s.advance n)

/-- `x[rm] <- u32(x[rm] + x[reg])` (41 R100). -/
def execAddRegReg (d r : Reg) (s : State) : Result := execBinary aluAdd 2 (.reg d) (.reg r) s

/-- `x[rm] <- u32(x[rm] - x[reg])` (41 R102). -/
def execSubRegReg (d r : Reg) (s : State) : Result := execBinary aluSub 2 (.reg d) (.reg r) s

/-- `x[rm] <- x[rm] ^ x[reg]` (41 R104). -/
def execXorRegReg (d r : Reg) (s : State) : Result := execBinary aluXor 2 (.reg d) (.reg r) s

/-- `x[rm] <- x[reg]` (42 R110). -/
def execMovRegReg (d r : Reg) (s : State) : Result := execBinary aluMov 2 (.reg d) (.reg r) s

/-- `x[rm] <- u32(x[rm] + imm)` (41 R101). -/
def execAddRegImm (d : Reg) (v : Word) (s : State) : Result := execBinary aluAdd 6 (.reg d) (.imm v) s

/-- `x[rm] <- u32(x[rm] - imm)` (41 R103). -/
def execSubRegImm (d : Reg) (v : Word) (s : State) : Result := execBinary aluSub 6 (.reg d) (.imm v) s

/-- `x[rm] <- x[rm] ^ imm` (41 R105). -/
def execXorRegImm (d : Reg) (v : Word) (s : State) : Result := execBinary aluXor 6 (.reg d) (.imm v) s

/-- `x[r] <- imm` (42 R111). -/
def execMovRegImm (d : Reg) (v : Word) (s : State) : Result := execBinary aluMov 5 (.reg d) (.imm v) s

/-- `x[rm] <- ~x[rm]` (43 R116). -/
def execNotReg (d : Reg) (s : State) : Result := execUnary aluNot 2 (.reg d) s

/-- `x[rm] <- u32(0 - x[rm])` (43 R115). -/
def execNegReg (d : Reg) (s : State) : Result := execUnary aluNeg 2 (.reg d) s

end Sys2Proof.Machine
end

