-- ==== Sys2Proof/Machine/Marker.lean ====
section
/-! DEFINITION. What the two marker patterns do once they have matched (spec/40_run_loop.md R84 to R86). Neither is produced by
`decode()`; neither touches a register or the argument cursor (R93). -/

namespace Sys2Proof.Machine

/-- The prolog is skipped whole and the run is in progress: `pc <- pc + 20; status <- RUNNING` (R84). -/
def execProlog (s : State) : Result := .next (s.advance 20).begin

/-- The epilog ends the run and is not consumed: `result <- x[0]; status <- DONE` (R86). -/
def execEpilog (s : State) : Result := .next s.finish

end Sys2Proof.Machine
end

