-- ==== Sys2Proof/Machine/Pop.lean ====
section
/-! DEFINITION. POP, the load of a register from the argument supply (spec/44_pop.md R120, R121). No stack is touched. -/

namespace Sys2Proof.Machine

/-- The next argument goes to `x[r]` and the argument cursor moves on; with none left, ArgumentSupplyExhausted with the position
of the opcode byte, and neither `x[r]` nor the cursor changes (R120, 60 R134; log 12). -/
def execPopReg (d : Reg) (s : State) : Result :=
  match s.args[s.argidx]? with
  | some v => writeOperand (.reg d) v (s.takeArg.advance 1)
  | none => .next ((s.advance 1).raise (.argumentSupplyExhausted s.pc s.argidx))

end Sys2Proof.Machine
end

