-- ==== Sys2Proof/Machine/Reject.lean ====
section
/-! DEFINITION. The faulting encodings: each row of the opcode table's class "fault" takes its fault (spec/30_encoding.md R57,
R61, R62, R65; 60_exceptions.md R132, R133, R141), the cursor standing after the bytes that were read (30 R73; log 12). -/

namespace Sys2Proof.Machine

/-- MemoryOperand with the position of the opcode byte, the opcode and the ModRM byte (60 R133). -/
def takeMemoryOperand (op modrm : Byte) (s : State) : Result :=
  .next ((s.advance 2).raise (.memoryOperand s.pc op modrm))

/-- UnsupportedOpcode for a sub-op, with the position of the opcode byte, the opcode and the reg field (60 R132). -/
def takeBadSubOp (op : Byte) (sub : BitVec 3) (s : State) : Result :=
  .next ((s.advance 2).raise (.unsupportedOpcode s.pc op (some sub)))

/-- Byte 0x01, mod 0 or 1 (30 R57). -/
def execMemLow01 (x : BitVec 7) (s : State) : Result := takeMemoryOperand 0x01 (0#1 ++ x) s

/-- Byte 0x01, mod 2 (30 R57). -/
def execMemTwo01 (x : BitVec 6) (s : State) : Result := takeMemoryOperand 0x01 (2#2 ++ x) s

/-- Byte 0x29, mod 0 or 1 (30 R57). -/
def execMemLow29 (x : BitVec 7) (s : State) : Result := takeMemoryOperand 0x29 (0#1 ++ x) s

/-- Byte 0x29, mod 2 (30 R57). -/
def execMemTwo29 (x : BitVec 6) (s : State) : Result := takeMemoryOperand 0x29 (2#2 ++ x) s

/-- Byte 0x31, mod 0 or 1 (30 R57). -/
def execMemLow31 (x : BitVec 7) (s : State) : Result := takeMemoryOperand 0x31 (0#1 ++ x) s

/-- Byte 0x31, mod 2 (30 R57). -/
def execMemTwo31 (x : BitVec 6) (s : State) : Result := takeMemoryOperand 0x31 (2#2 ++ x) s

/-- Byte 0x81, mod 0 or 1 (30 R57). -/
def execMemLow81 (x : BitVec 7) (s : State) : Result := takeMemoryOperand 0x81 (0#1 ++ x) s

/-- Byte 0x81, mod 2 (30 R57). -/
def execMemTwo81 (x : BitVec 6) (s : State) : Result := takeMemoryOperand 0x81 (2#2 ++ x) s

/-- Byte 0x89, mod 0 or 1 (30 R57). -/
def execMemLow89 (x : BitVec 7) (s : State) : Result := takeMemoryOperand 0x89 (0#1 ++ x) s

/-- Byte 0x89, mod 2 (30 R57). -/
def execMemTwo89 (x : BitVec 6) (s : State) : Result := takeMemoryOperand 0x89 (2#2 ++ x) s

/-- Byte 0xF7, mod 0 or 1 (30 R57). -/
def execMemLowF7 (x : BitVec 7) (s : State) : Result := takeMemoryOperand 0xF7 (0#1 ++ x) s

/-- Byte 0xF7, mod 2 (30 R57). -/
def execMemTwoF7 (x : BitVec 6) (s : State) : Result := takeMemoryOperand 0xF7 (2#2 ++ x) s

/-- Byte 0x81 with a sub-op that is no instruction; no immediate byte is read (30 R61). -/
def execBadSub81 (sub _rm : BitVec 3) (s : State) : Result := takeBadSubOp 0x81 sub s

/-- Byte 0xF7 with a sub-op that is no instruction (30 R62, 43 R117). -/
def execBadSubF7 (sub _rm : BitVec 3) (s : State) : Result := takeBadSubOp 0xF7 sub s

/-- A first byte outside the table: UnsupportedOpcode without a sub-op, after that one byte (30 R65, 60 R132). -/
def execOtherByte (op : Byte) (s : State) : Result :=
  .next ((s.advance 1).raise (.unsupportedOpcode s.pc op none))

end Sys2Proof.Machine
end

