-- ==== Sys2Proof/Machine/Dispatch.lean ====
section
/-! DEFINITION. One arm per constructor of `Instr`, each one direct call of that instruction's meaning. No instruction reads the
status (spec/10_state.md R17); `step` calls `exec` only where the spec executes (log 19). -/

namespace Sys2Proof.Machine

def exec (i : Instr) (s : State) : Host.Outcome State Fault Refusal :=
  match i with
  | .prolog => Sys2Proof.Machine.execProlog s
  | .epilog => Sys2Proof.Machine.execEpilog s
  | .addRegReg d r => Sys2Proof.Machine.execAddRegReg d r s
  | .subRegReg d r => Sys2Proof.Machine.execSubRegReg d r s
  | .xorRegReg d r => Sys2Proof.Machine.execXorRegReg d r s
  | .movRegReg d r => Sys2Proof.Machine.execMovRegReg d r s
  | .addRegImm d v => Sys2Proof.Machine.execAddRegImm d v s
  | .subRegImm d v => Sys2Proof.Machine.execSubRegImm d v s
  | .xorRegImm d v => Sys2Proof.Machine.execXorRegImm d v s
  | .notReg d => Sys2Proof.Machine.execNotReg d s
  | .negReg d => Sys2Proof.Machine.execNegReg d s
  | .popReg d => Sys2Proof.Machine.execPopReg d s
  | .movRegImm d v => Sys2Proof.Machine.execMovRegImm d v s
  | .memLow01 x => Sys2Proof.Machine.execMemLow01 x s
  | .memTwo01 x => Sys2Proof.Machine.execMemTwo01 x s
  | .memLow29 x => Sys2Proof.Machine.execMemLow29 x s
  | .memTwo29 x => Sys2Proof.Machine.execMemTwo29 x s
  | .memLow31 x => Sys2Proof.Machine.execMemLow31 x s
  | .memTwo31 x => Sys2Proof.Machine.execMemTwo31 x s
  | .memLow81 x => Sys2Proof.Machine.execMemLow81 x s
  | .memTwo81 x => Sys2Proof.Machine.execMemTwo81 x s
  | .memLow89 x => Sys2Proof.Machine.execMemLow89 x s
  | .memTwo89 x => Sys2Proof.Machine.execMemTwo89 x s
  | .memLowF7 x => Sys2Proof.Machine.execMemLowF7 x s
  | .memTwoF7 x => Sys2Proof.Machine.execMemTwoF7 x s
  | .badSub81 sub rm => Sys2Proof.Machine.execBadSub81 sub rm s
  | .badSubF7 sub rm => Sys2Proof.Machine.execBadSubF7 sub rm s
  | .otherByte op => Sys2Proof.Machine.execOtherByte op s

end Sys2Proof.Machine
end

