-- ==== Sys2Proof/Machine/Run.lean ====
section
/-! DEFINITION. The run sequence (spec/40_run_loop.md R82 to R86, R94): accepting an `emulate`, and one iteration of the loop.
Also the placing of one instruction for the host's check of a single step. -/

namespace Sys2Proof.Machine

/-- An accepted `emulate(start_rva, args)`: reset, resolve, seek, prolog compare, in this order (R82, R83, R84, R94).
The start address is kept in no state component (log 18). -/
def startRun (q : Request) (s : State) : Result :=
  let cleared := s.runReset q.args
  match resolveRva s.resolve q.startRva with
  | none => .next (cleared.raise (.addressResolveFault q.startRva))
  | some p =>
    let start := cleared.seek p
    match peek prologBytes start with
    | .error f => .next (start.raise f)
    | .ok false => .next (start.raise (.missingProlog q.startRva p))
    | .ok true => exec .prolog start

/-- One iteration of the loop: what stands at the cursor is decoded, the epilog first, and executed; a fetch past the end of the
image raises FetchOutOfBounds with the cursor after the bytes already read (R85, R94, 60 R135; log 1, log 12). -/
def runStep (s : State) : Result :=
  match decodeBoundary (s.mem.window s.pc maxInstrBytes) with
  | .ok i => exec i s
  | .error (.short off n) => .next ((s.advance off).raise (.fetchOutOfBounds (s.pc + off) n))

/-- The machine over `status` (R94): a run in progress makes one iteration; otherwise the host's request is accepted. Without a
request there is no step (log 3); a request during a run has no transition (60 R150; log 4). -/
def stepMachine (s : State) : Result :=
  match s.status, s.request with
  | .running, none => runStep s
  | .running, some _ => .refused .emulateWhileRunning
  | .idle, some q => startRun q s
  | .done, some q => startRun q s
  | .faulted, some q => startRun q s
  | .idle, none => .fault .noRequest
  | .done, none => .fault .noRequest
  | .faulted, none => .fault .noRequest

/-- One instruction placed so that the very next step runs it. A prolog stands where a run starts: the host's request is pending
and its RVA resolves to the cursor. Every other row stands at an instruction boundary of a run in progress (log 13). -/
def placeWord (s : State) (nbits w : Nat) : State :=
  if isPrologWord nbits w then
    { s with
      mem := s.mem.load s.pc prologBytes
      status := .idle
      resolve := (0, s.pc) :: s.resolve
      request := some { startRva := 0, args := [] } }
  else
    { s with mem := s.mem.load s.pc (tableBytes nbits w), status := .running, request := none }

end Sys2Proof.Machine
end

