-- ==== Sys2Proof/Machine/Step.lean ====
section
/-! DEFINITION. One step of the machine, and the host's placing of one instruction; both only call the run sequence. -/

namespace Sys2Proof.Machine

/-- One step (spec/40_run_loop.md R94). -/
def step (s : State) : Host.Outcome State Fault Refusal := stepMachine s

/-- The state with one instruction where the next step fetches it. -/
def State.withFetchWord (s : State) (nbits w : Nat) : State := placeWord s nbits w

end Sys2Proof.Machine
end

