-- ==== Sys2Proof/Machine/Reference.lean ====
section
/-! DEFINITION. One iteration of the loop in the spec's own pseudocode: `Fetch8`, `Fetch32` (spec/20_memory.md R34, R35),
`matches` (40_run_loop.md R80), `ModRM` and `decode()` (30_encoding.md R59), `execute` (40 R87). The machine of Run.lean decodes a
window of bytes instead; that the two agree is a statement for the provers. Nothing here is used by `step`. -/

namespace Sys2Proof.Machine

/-- A piece of pseudocode that reads the image: it yields a value and the state after it, or it raises. -/
inductive Fetched (α : Type) where
  | ok (a : α) (s : State)
  | raised (f : FaultRecord) (s : State)

/-- One statement of the pseudocode after another: "No statement after a raise is performed" (00 R9). -/
def Fetched.andThen {α β : Type} (x : Fetched α) (k : α → State → Fetched β) : Fetched β :=
  match x with
  | .ok a s => k a s
  | .raised f s => .raised f s

/-- `{kind, operand1, operand2}` (10 R16). -/
structure RefInstr where
  kind     : OpKind
  operand1 : Operand
  operand2 : Option Operand
deriving DecidableEq, Repr

/-- `Fetch8()`: `b <- MemRead(pc, 1); pc <- pc + 1` (20 R34). -/
def fetch8 (s : State) : Fetched Byte :=
  match memRead s.mem s.pc 1 with
  | .ok n => .ok (BitVec.ofNat 8 n) (s.advance 1)
  | .error f => .raised f s

/-- `Fetch32()`: `w <- MemRead(pc, 4); pc <- pc + 4` (20 R35). -/
def fetch32 (s : State) : Fetched Word :=
  match memRead s.mem s.pc 4 with
  | .ok n => .ok (BitVec.ofNat 32 n) (s.advance 4)
  | .error f => .raised f s

/-- `ModRM(start, op)`, the fields `(reg, rm)` (30 R59). -/
def refModRM (start : Nat) (op : Byte) (s : State) : Fetched (BitVec 3 × BitVec 3) :=
  (fetch8 s).andThen fun m s =>
    if modField m ≠ 3#2 then .raised (.memoryOperand start op m) s else .ok (regField m, rmField m) s

/-- `{kind, RegisterRef(rm), RegisterRef(reg)}` of a register-register opcode (30 R59). -/
def refRegReg (kind : OpKind) (start : Nat) (op : Byte) (s : State) : Fetched RefInstr :=
  (refModRM start op s).andThen fun f s => .ok ⟨kind, .reg (.ofBits f.2), some (.reg (.ofBits f.1))⟩ s

/-- `imm <- Fetch32(); return {kind, RegisterRef(r), Immediate(i32(imm))}` (30 R59). -/
def refRegImm (kind : OpKind) (r : BitVec 3) (s : State) : Fetched RefInstr :=
  (fetch32 s).andThen fun v s => .ok ⟨kind, .reg (.ofBits r), some (.imm v)⟩ s

/-- `decode()` (30 R59), statement by statement. -/
def refDecode (s : State) : Fetched RefInstr :=
  let start := s.pc
  (fetch8 s).andThen fun op s =>
    if op = 0x01#8 then refRegReg .addRegReg start op s
    else if op = 0x29#8 then refRegReg .subRegReg start op s
    else if op = 0x31#8 then refRegReg .xorRegReg start op s
    else if 0x58#8 ≤ op ∧ op ≤ 0x5F#8 then .ok ⟨.popReg, .reg (.ofBits ((op - 0x58#8).setWidth 3)), none⟩ s
    else if op = 0x81#8 then
      (refModRM start op s).andThen fun f s =>
        if f.1 = 0#3 then refRegImm .addRegImm f.2 s
        else if f.1 = 5#3 then refRegImm .subRegImm f.2 s
        else if f.1 = 6#3 then refRegImm .xorRegImm f.2 s
        else .raised (.unsupportedOpcode start op (some f.1)) s
    else if op = 0x89#8 then refRegReg .movRegReg start op s
    else if 0xB8#8 ≤ op ∧ op ≤ 0xBF#8 then refRegImm .movRegImm ((op - 0xB8#8).setWidth 3) s
    else if op = 0xF7#8 then
      (refModRM start op s).andThen fun f s =>
        if f.1 = 2#3 then .ok ⟨.notReg, .reg (.ofBits f.2), none⟩ s
        else if f.1 = 3#3 then .ok ⟨.negReg, .reg (.ofBits f.2), none⟩ s
        else .raised (.unsupportedOpcode start op (some f.1)) s
    else .raised (.unsupportedOpcode start op none) s

/-- `value(operand2)`; a kind without a second operand does not read it (40 R87, R88). -/
def refSource (insn : RefInstr) (s : State) : Word :=
  match insn.operand2 with
  | some o => operandValue s o
  | none => 0

/-- `execute(insn)`, `start` being the position of the opcode byte (40 R87). -/
def refExecute (insn : RefInstr) (start : Nat) (s : State) : Result :=
  let a := operandValue s insn.operand1
  let b := refSource insn s
  match insn.kind with
  | .addRegReg | .addRegImm => writeOperand insn.operand1 (u32 ((a.toNat : Int) + b.toNat)) s
  | .subRegReg | .subRegImm => writeOperand insn.operand1 (u32 ((a.toNat : Int) - b.toNat)) s
  | .xorRegReg | .xorRegImm => writeOperand insn.operand1 (a ^^^ b) s
  | .movRegReg | .movRegImm => writeOperand insn.operand1 b s
  | .negReg => writeOperand insn.operand1 (u32 (0 - (a.toNat : Int))) s
  | .notReg => writeOperand insn.operand1 (~~~a) s
  | .popReg =>
    if s.argidx ≥ s.args.length then .next (s.raise (.argumentSupplyExhausted start s.argidx))
    else writeOperand insn.operand1 (s.args.getD s.argidx 0) s.takeArg

/-- One iteration at an instruction boundary: the epilog compare, then decode and execute (40 R82, R85, R94). -/
def refIteration (s : State) : Result :=
  match peek epilogBytes s with
  | .error f => .next (s.raise f)
  | .ok true => .next s.finish
  | .ok false =>
    match refDecode s with
    | .raised f t => .next (t.raise f)
    | .ok insn t => refExecute insn s.pc t

end Sys2Proof.Machine
end

