-- ==== Sys2Proof/Machine/Text.lean ====
section
/-! DEFINITION. The textual form of a decoded instruction (spec/30_encoding.md R70, R71): lower-case mnemonic, a space, the
destination, and for two operands a comma, a space and the source; an immediate as 0x and upper-case hexadecimal without leading
zeros. Only the eleven kinds have a text (log 17). -/

namespace Sys2Proof.Machine

/-- The name of a register (10 R10). -/
def regText : Reg → List Char
  | .eax => ['e', 'a', 'x'] | .ecx => ['e', 'c', 'x'] | .edx => ['e', 'd', 'x'] | .ebx => ['e', 'b', 'x']
  | .esp => ['e', 's', 'p'] | .ebp => ['e', 'b', 'p'] | .esi => ['e', 's', 'i'] | .edi => ['e', 'd', 'i']

/-- The mnemonic of a kind (R71). -/
def kindText : OpKind → List Char
  | .addRegImm | .addRegReg => ['a', 'd', 'd']
  | .subRegImm | .subRegReg => ['s', 'u', 'b']
  | .xorRegImm | .xorRegReg => ['x', 'o', 'r']
  | .movRegImm | .movRegReg => ['m', 'o', 'v']
  | .negReg => ['n', 'e', 'g']
  | .notReg => ['n', 'o', 't']
  | .popReg => ['p', 'o', 'p']

/-- One upper-case hexadecimal digit: 0 to 9 from the code of '0', A to F from the code of 'A'. -/
def hexDigit (d : BitVec 4) : Char :=
  if d.toNat < 10 then Char.ofNat (48 + d.toNat) else Char.ofNat (55 + d.toNat)

/-- The eight digits of a word, the most significant first. -/
def wordDigits (v : Word) : List (BitVec 4) :=
  [v.extractLsb' 28 4, v.extractLsb' 24 4, v.extractLsb' 20 4, v.extractLsb' 16 4,
    v.extractLsb' 12 4, v.extractLsb' 8 4, v.extractLsb' 4 4, v.extractLsb' 0 4]

/-- The digits without leading zeros; the last digit stays. -/
def dropLeadingZeros : List (BitVec 4) → List (BitVec 4)
  | [] => []
  | [d] => [d]
  | d :: e :: ds => if d = 0 then dropLeadingZeros (e :: ds) else d :: e :: ds

/-- An immediate "displayed as unsigned hex" (R70, R71). -/
def immText (v : Word) : List Char := '0' :: 'x' :: (dropLeadingZeros (wordDigits v)).map hexDigit

/-- The text of an operand. -/
def operandText : Operand → List Char
  | .reg r => regText r
  | .imm v => immText v

/-- The text of an instruction; none for the markers and the faulting encodings. -/
def instrText (i : Instr) : Option (List Char) :=
  match instrKind i, operand1 i, operand2 i with
  | some k, some a, some b => some (kindText k ++ ' ' :: operandText a ++ ',' :: ' ' :: operandText b)
  | some k, some a, none => some (kindText k ++ ' ' :: operandText a)
  | some _, none, _ => none
  | none, _, _ => none

end Sys2Proof.Machine
end

