-- ==== Sys2Proof/Machine/Emulate.lean ====
section
/-! DEFINITION. The host's transaction as a whole (spec/40_run_loop.md R81, R82, R95): an `emulate` from its acceptance to the end
of the run, as a chain of steps. -/

namespace Sys2Proof.Machine

/-- Steps until the run has ended, at most `n` of them. -/
def runToEnd : Nat → State → Result
  | 0, s => .next s
  | n + 1, s =>
    match s.status with
    | .running =>
      match step s with
      | .next t => runToEnd n t
      | .fault r => .fault r
      | .refused r => .refused r
    | .idle => .next s
    | .done => .next s
    | .faulted => .next s

/-- `emulate(start_rva, args)` (R81). The bound on the steps is the image's own: an iteration reads inside the extent and moves
the cursor (R91; log 20). -/
def emulate (startRva : Rva) (args : List Word) (s : State) : Result :=
  match step (s.submit { startRva := startRva, args := args }) with
  | .next t => runToEnd (t.mem.extent + 1) t
  | .fault r => .fault r
  | .refused r => .refused r

/-- The single-argument form (R95). -/
def emulateSingle (startRva : Rva) (arg : Word) (s : State) : Result := emulate startRva [arg] s

end Sys2Proof.Machine
end

