-- ==== Sys2Proof/Safety.lean ====
section
/-! DEFINITION. The terms in which statements are made: the invariant of the machine, what two states share, and what a
register instruction leaves unchanged. -/

namespace Sys2Proof.Machine

/-- The invariant: the image is in canonical form, the argument cursor stays inside the supply (10 R15), and while a run is in
progress or has succeeded the cursor is inside the image or just after it (10 R26). -/
structure Inv (s : State) : Prop where
  memWf : s.mem.wf = true
  argBound : s.argidx ≤ s.args.length
  pcBound : s.status = .running ∨ s.status = .done → s.pc ≤ s.mem.extent

/-- The image, its extent, `Resolve` and the host's request are the same, and every position reads the same byte. -/
structure SamePlatform (s t : State) : Prop where
  bytes : ∀ a, t.mem.byteAt a = s.mem.byteAt a
  mem : t.mem = s.mem
  resolve : t.resolve = s.resolve
  request : t.request = s.request

/-- What a register instruction leaves alone: every register but `d`, the argument supply and its cursor, the status, the result
latch, the fault record and the platform; the cursor moves by `n` (10 R11, R14). -/
structure WritesOnly (s t : State) (d : Reg) (n : Nat) : Prop where
  regs : ∀ r, r ≠ d → t.reg r = s.reg r
  pc : t.pc = s.pc + n
  args : t.args = s.args
  argidx : t.argidx = s.argidx
  status : t.status = s.status
  result : t.result = s.result
  fault : t.fault = s.fault
  platform : SamePlatform s t

/-- A fault has been taken from `s`: the status and the record are those of the fault, no register, argument or argument cursor
has changed, the result latch and the platform are as before (60 R140, R141, 40 R87). The cursor after a fault is not observable
(10 R24) and is left out. -/
structure TookFault (s t : State) (f : FaultRecord) : Prop where
  status : t.status = .faulted
  fault : t.fault = f
  regs : ∀ r, t.reg r = s.reg r
  args : t.args = s.args
  argidx : t.argidx = s.argidx
  result : t.result = s.result
  platform : SamePlatform s t

/-- A run is in progress and the host has issued no second `emulate` (60 R150). -/
def Running (s : State) : Prop := s.status = .running ∧ s.request = none

/-- The run has ended (40 R96). -/
def Ended (s : State) : Prop := s.status = .done ∨ s.status = .faulted

/-- The register an instruction may write (10 R11). -/
def destination (i : Instr) : Option Reg :=
  match operand1 i with
  | some (.reg d) => some d
  | some (.imm _) => none
  | none => none

/-- The bytes from the cursor on begin with `bs`, all of them inside the image. -/
def StandsAtPc (s : State) (bs : List Byte) : Prop := s.mem.window s.pc bs.length = bs

/-- The bytes decode to `i`, whatever follows them. -/
def DecodesAs (bs : List Byte) (i : Instr) : Prop := ∀ tail, decode (bs ++ tail) = .ok i

/-- A ModRM byte with mod 0, 1 or 2 (a value below 0xC0) after the opcode `op` is MemoryOperand, whatever its other fields and
whatever follows (30 R57, 60 R133). -/
def RejectsMemoryOperand (op : Byte) : Prop :=
  ∀ (m : Byte) (tail : List Byte), m.toNat < 0xC0 →
    ∃ i, decode (op :: m :: tail) = .ok i ∧
      ∀ s, ∃ t, exec i s = .next t ∧ TookFault s t (.memoryOperand s.pc op m)

/-- The ModRM byte `0xC0 + 8*reg + rm` after the opcode `op` is UnsupportedOpcode with `sub = reg`, whatever follows
(30 R61, R62, 60 R132). -/
def RejectsSubOp (op : Byte) (sub : BitVec 3) : Prop :=
  ∀ (rm : BitVec 3) (tail : List Byte),
    ∃ i, decode (op :: BitVec.ofNat 8 (0xC0 + 8 * sub.toNat + rm.toNat) :: tail) = .ok i ∧
      ∀ s, ∃ t, exec i s = .next t ∧ TookFault s t (.unsupportedOpcode s.pc op (some sub))

/-- Where the bytes `first` of an instruction stand at the cursor, the epilog test's four bytes are there, and the four immediate
bytes after `first` would pass the end of the image, a step takes FetchOutOfBounds with the position and the size of that fetch
(60 R135). -/
def ImmediateFetchFaults (first : List Byte) : Prop :=
  ∀ s : State, Running s → StandsAtPc s first → s.pc + 4 ≤ s.mem.extent → s.pc + first.length + 4 > s.mem.extent →
    ∃ t, step s = .next t ∧ TookFault s t (.fetchOutOfBounds (s.pc + first.length) 4)

/-- What the start of a run has done, whether it succeeded or not: the run-start reset with the request's arguments, the request
accepted, the platform as before (10 R22, 40 R83). -/
structure RunReset (s t : State) (q : Request) : Prop where
  regs : ∀ r, t.reg r = 0
  argidx : t.argidx = 0
  args : t.args = q.args
  request : t.request = none
  mem : t.mem = s.mem
  resolve : t.resolve = s.resolve

/-- The register-direct ModRM byte `0xC0 + 8*reg + rm` (30 R57). -/
def directModRM (reg rm : Nat) : Byte := BitVec.ofNat 8 (0xC0 + 8 * reg + rm)

end Sys2Proof.Machine
end

