-- ==== Sys2Proof/Certificates/Slice0/Obligations.lean ====
section
/-! DEFINITION. The statements for the provers, each from the spec's numbered rules. -/

section

open Sys2Proof Sys2Proof.Machine

/-! ### Encoding -/

/-- Words written out bit by bit from the encoding rules and the opcode table decode to the instructions they stand for
(30 R51 to R54, R57, R61, R62, R65). -/
def Obligations.SampleWordsDecode : Prop :=
  decode [0b00000001, 0b11001000] = .ok (.addRegReg .eax .ecx) ∧
  decode [0b00101001, 0b11010011] = .ok (.subRegReg .ebx .edx) ∧
  decode [0b00110001, 0b11100101] = .ok (.xorRegReg .ebp .esp) ∧
  decode [0b10001001, 0b11101100] = .ok (.movRegReg .esp .ebp) ∧
  decode [0b10000001, 0b11000011, 0xF0, 0xFF, 0xFF, 0xFF] = .ok (.addRegImm .ebx 0xFFFFFFF0) ∧
  decode [0b10000001, 0b11101111, 0x01, 0x00, 0x00, 0x00] = .ok (.subRegImm .edi 0x00000001) ∧
  decode [0b10000001, 0b11110110, 0x78, 0x56, 0x34, 0x12] = .ok (.xorRegImm .esi 0x12345678) ∧
  decode [0b11110111, 0b11010111] = .ok (.notReg .edi) ∧
  decode [0b11110111, 0b11011001] = .ok (.negReg .ecx) ∧
  decode [0b01011100] = .ok (.popReg .esp) ∧
  decode [0b10111010, 0xEF, 0xBE, 0xAD, 0xDE] = .ok (.movRegImm .edx 0xDEADBEEF) ∧
  decode [0b10000001, 0b00001000] = .ok (.memLow81 0b0001000) ∧
  decode [0b11110111, 0b10011000] = .ok (.memTwoF7 0b011000) ∧
  decode [0b10000001, 0b11001000] = .ok (.badSub81 1 0) ∧
  decode [0b11110111, 0b11100000] = .ok (.badSubF7 4 0) ∧
  decode [0b10010000] = .ok (.otherByte 0x90) ∧
  decodeBoundary [0x5E, 0x5F, 0x5B, 0xC3] = .ok .epilog ∧
  decodeTableWord 160 0x89E053575629E083F81874078B44241050EB0151 = some .prolog

/-- R55: the ModRM byte is `64*mod + 8*reg + rm` of its three fields, and these are the only fields that give it. -/
def Obligations.ModRMFieldsCompose : Prop :=
  ∀ m : Byte,
    m.toNat = 64 * (modField m).toNat + 8 * (regField m).toNat + (rmField m).toNat ∧
    ∀ (mod : BitVec 2) (reg rm : BitVec 3), m.toNat = 64 * mod.toNat + 8 * reg.toNat + rm.toNat →
      mod = modField m ∧ reg = regField m ∧ rm = rmField m

/-- R58: the immediate is the little-endian value of its four bytes, and reading it as signed and back changes nothing. -/
def Obligations.ImmediateIsLittleEndian : Prop :=
  ∀ b0 b1 b2 b3 : Byte,
    (imm32 b0 b1 b2 b3).toNat = b0.toNat + 2 ^ 8 * b1.toNat + 2 ^ 16 * b2.toNat + 2 ^ 24 * b3.toNat ∧
    u32 (i32 (imm32 b0 b1 b2 b3)) = imm32 b0 b1 b2 b3

/-- Every well-formed instruction and faulting encoding is what its own bytes decode to, whatever follows them: no bit of an
encoding is dropped (30 R50 to R65). The two markers are no products of `decode()`. -/
def Obligations.DecodeOfEncode : Prop :=
  ∀ i : Instr, i.wf = true → i ≠ .prolog → i ≠ .epilog → DecodesAs (encode i) i

/-- What decodes is well-formed, is no marker, and has one encoding: the bytes that were read are the bytes of `encode` (30 R69). -/
def Obligations.EncodeOfDecode : Prop :=
  ∀ (bs : List Byte) (i : Instr), decode bs = .ok i →
    i.wf = true ∧ i ≠ .prolog ∧ i ≠ .epilog ∧ bs.take i.size = encode i ∧ i.size ≤ bs.length

/-- At an instruction boundary the epilog's bytes are the epilog, whatever follows, and everything else is what `decode()` makes of
it, once four bytes are there (40 R85). -/
def Obligations.BoundaryDecoding : Prop :=
  (∀ tail, decodeBoundary (epilogBytes ++ tail) = .ok .epilog) ∧
  (∀ bs, bs.length < 4 → decodeBoundary bs = .error (.short 0 4)) ∧
  (∀ i tail, i.wf = true → i ≠ .prolog → i ≠ .epilog → 4 ≤ (encode i ++ tail).length →
    (encode i ++ tail).take 4 ≠ epilogBytes → decodeBoundary (encode i ++ tail) = .ok i)

/-- R68: the length of a decoded instruction is told from its first byte and nothing else. -/
def Obligations.LengthFromFirstByte : Prop :=
  ∀ (op : Byte) (rest : List Byte) (i : Instr), decode (op :: rest) = .ok i → instrKind i ≠ none →
    i.size =
      if 0x58#8 ≤ op ∧ op ≤ 0x5F#8 then 1
      else if 0xB8#8 ≤ op ∧ op ≤ 0xBF#8 then 5
      else if op = 0x81#8 then 6
      else 2

/-- R65: a first byte outside the set is UnsupportedOpcode without a sub-op, whatever follows; a byte of the set is not; 22 bytes
are supported and 234 are not. -/
def Obligations.UnsupportedFirstByte : Prop :=
  (∀ (op : Byte) (tail : List Byte),
    ¬ (op = 0x01#8 ∨ op = 0x29#8 ∨ op = 0x31#8 ∨ (0x58#8 ≤ op ∧ op ≤ 0x5F#8) ∨ op = 0x81#8 ∨ op = 0x89#8 ∨ (0xB8#8 ≤ op ∧ op ≤ 0xBF#8) ∨
      op = 0xF7#8) →
    ∃ i, decode (op :: tail) = .ok i ∧
      ∀ s, ∃ t, exec i s = .next t ∧ TookFault s t (.unsupportedOpcode s.pc op none)) ∧
  (∀ (op : Byte) (tail : List Byte) (i : Instr),
    (op = 0x01#8 ∨ op = 0x29#8 ∨ op = 0x31#8 ∨ (0x58#8 ≤ op ∧ op ≤ 0x5F#8) ∨ op = 0x81#8 ∨ op = 0x89#8 ∨ (0xB8#8 ≤ op ∧ op ≤ 0xBF#8) ∨
      op = 0xF7#8) →
    decode (op :: tail) = .ok i → ∀ b, i ≠ .otherByte b) ∧
  ((List.range 256).filter fun n => supportedByte (BitVec.ofNat 8 n)).length = 22 ∧
  ((List.range 256).filter fun n => !supportedByte (BitVec.ofNat 8 n)).length = 234

/-- R57, R133: for each of the six opcodes with a ModRM byte, a mod other than 3 is MemoryOperand with the position of the opcode
byte, the opcode and the ModRM byte, before the sub-op or an immediate is looked at. -/
def Obligations.MemoryOperandRejected : Prop :=
  ∀ op : Byte, op = 0x01#8 ∨ op = 0x29#8 ∨ op = 0x31#8 ∨ op = 0x81#8 ∨ op = 0x89#8 ∨ op = 0xF7#8 → RejectsMemoryOperand op

/-- R61: for 0x81 with mod 3, sub-op 0 is ADD, 5 SUB, 6 XOR with the immediate that follows; every other sub-op is
UnsupportedOpcode, whatever follows. -/
def Obligations.SubOpsOf81 : Prop :=
  (∀ (d : Reg) (b0 b1 b2 b3 : Byte),
    DecodesAs [0x81, directModRM 0 d.bits.toNat, b0, b1, b2, b3] (.addRegImm d (imm32 b0 b1 b2 b3)) ∧
    DecodesAs [0x81, directModRM 5 d.bits.toNat, b0, b1, b2, b3] (.subRegImm d (imm32 b0 b1 b2 b3)) ∧
    DecodesAs [0x81, directModRM 6 d.bits.toNat, b0, b1, b2, b3] (.xorRegImm d (imm32 b0 b1 b2 b3))) ∧
  (∀ sub : BitVec 3, sub ≠ 0#3 → sub ≠ 5#3 → sub ≠ 6#3 → RejectsSubOp 0x81 sub)

/-- R62: for 0xF7 with mod 3, sub-op 2 is NOT and 3 is NEG, with no immediate; every other sub-op is UnsupportedOpcode. -/
def Obligations.SubOpsOfF7 : Prop :=
  (∀ d : Reg,
    DecodesAs [0xF7, directModRM 2 d.bits.toNat] (.notReg d) ∧ DecodesAs [0xF7, directModRM 3 d.bits.toNat] (.negReg d)) ∧
  (∀ sub : BitVec 3, sub ≠ 2#3 → sub ≠ 3#3 → RejectsSubOp 0xF7 sub)

/-- R71: the map from a decoded instruction to its text is injective on the eleven kinds. -/
def Obligations.TextIsInjective : Prop :=
  ∀ i j : Instr, instrKind i ≠ none → instrText i = instrText j → i = j

/-! ### The read primitives, the operands, the fault record -/

/-- R32: `MemRead` tests the whole access first and then yields the little-endian sum of the image's bytes. -/
def Obligations.MemReadBoundsAndValue : Prop :=
  ∀ (m : Memory) (addr n : Nat),
    (addr + n > m.extent → memRead m addr n = .error (.fetchOutOfBounds addr n)) ∧
    (addr + n ≤ m.extent →
      memRead m addr n = .ok (∑ k ∈ Finset.range n, 2 ^ (8 * k) * (lookupCell m.cells (addr + k)).toNat))

/-- R34, R35: `Fetch8` and `Fetch32` read one and four bytes at the cursor and move it past them; out of bounds they raise and do
not move it. The value of `Fetch32` is the little-endian value of the four bytes. -/
def Obligations.FetchReadsAndAdvances : Prop :=
  ∀ s : State,
    (∀ b, s.mem.byteAt s.pc = some b → fetch8 s = .ok b (s.advance 1)) ∧
    (s.pc + 1 > s.mem.extent → fetch8 s = .raised (.fetchOutOfBounds s.pc 1) s) ∧
    (∀ b0 b1 b2 b3, s.mem.byteAt s.pc = some b0 → s.mem.byteAt (s.pc + 1) = some b1 → s.mem.byteAt (s.pc + 2) = some b2 →
      s.mem.byteAt (s.pc + 3) = some b3 → fetch32 s = .ok (imm32 b0 b1 b2 b3) (s.advance 4)) ∧
    (s.pc + 4 > s.mem.extent → fetch32 s = .raised (.fetchOutOfBounds s.pc 4) s)

/-- R80: the lookahead faults where the image is too short; otherwise it answers whether every byte agrees. It yields no state, so
the cursor cannot move. -/
def Obligations.LookaheadCompares : Prop :=
  ∀ (p : List Byte) (s : State),
    (s.pc + p.length > s.mem.extent → peek p s = .error (.fetchOutOfBounds s.pc p.length)) ∧
    (s.pc + p.length ≤ s.mem.extent →
      ∃ b, peek p s = .ok b ∧ (b = true ↔ ∀ k, k < p.length → s.mem.byteAt (s.pc + k) = p[k]?))

/-- R88: a register operand reads its slot, an immediate its stored value reinterpreted as unsigned. R89: a write through a register
operand is `x[i] <- v` and nothing else; through an immediate it is InternalError. R89 lets a
model leave that fault out; keeping it is the model's choice (log 16). -/
def Obligations.OperandsReadAndWrite : Prop :=
  ∀ (s : State) (r : Reg) (v w : Word),
    operandValue s (.reg r) = s.reg r ∧ operandValue s (.imm w) = u32 (i32 w) ∧
    (∃ t, writeOperand (.reg r) v s = .next t ∧ t.reg r = v ∧ WritesOnly s t r 0) ∧
    (∃ t, writeOperand (.imm w) v s = .next t ∧ TookFault s t .internalError)

/-- R130: the codes of the seven kinds. -/
def Obligations.FaultCodes : Prop :=
  ∀ (rva : Rva) (p n : Nat) (op m : Byte) (sub : Option (BitVec 3)),
    (FaultRecord.missingProlog rva p).kind.code = 1 ∧ (FaultRecord.unsupportedOpcode p op sub).kind.code = 2 ∧
    (FaultRecord.memoryOperand p op m).kind.code = 3 ∧ (FaultRecord.argumentSupplyExhausted p n).kind.code = 4 ∧
    (FaultRecord.fetchOutOfBounds p n).kind.code = 5 ∧ (FaultRecord.addressResolveFault rva).kind.code = 6 ∧
    FaultRecord.internalError.kind.code = 7

/-- R141, R142: taking a fault writes the record and the status, nothing else, and the host then reads that record and no value. -/
def Obligations.FaultEntry : Prop :=
  ∀ (s : State) (f : FaultRecord),
    TookFault s (s.raise f) f ∧ (s.raise f).outcome = some (.faulted f)

/-! ### The eleven instructions -/

/-- R100: `01`, `0xC0 + 8*reg + rm`, length 2: `x[rm] <- u32(x[rm] + x[reg])`, nothing else changes; MemoryOperand for mod ≠ 3. -/
def Obligations.AddRegRegRule : Prop :=
  (∀ (d r : Reg) (s : State),
    ∃ t, exec (.addRegReg d r) s = .next t ∧ (t.reg d).toNat = ((s.reg d).toNat + (s.reg r).toNat) % 2 ^ 32 ∧
      WritesOnly s t d 2) ∧
  (∀ d r : Reg, DecodesAs [0x01, directModRM r.bits.toNat d.bits.toNat] (.addRegReg d r)) ∧
  RejectsMemoryOperand 0x01

/-- R102: `29`, `0xC0 + 8*reg + rm`, length 2: `x[rm] <- u32(x[rm] - x[reg])`, nothing else changes; MemoryOperand for mod ≠ 3. -/
def Obligations.SubRegRegRule : Prop :=
  (∀ (d r : Reg) (s : State),
    ∃ t, exec (.subRegReg d r) s = .next t ∧
      ((t.reg d).toNat : Int) = (((s.reg d).toNat : Int) - (s.reg r).toNat) % 2 ^ 32 ∧ WritesOnly s t d 2) ∧
  (∀ d r : Reg, DecodesAs [0x29, directModRM r.bits.toNat d.bits.toNat] (.subRegReg d r)) ∧
  RejectsMemoryOperand 0x29

/-- R104: `31`, `0xC0 + 8*reg + rm`, length 2: bit k of the result is 1 exactly when bits k of the sources differ; nothing else
changes; MemoryOperand for mod ≠ 3. -/
def Obligations.XorRegRegRule : Prop :=
  (∀ (d r : Reg) (s : State),
    ∃ t, exec (.xorRegReg d r) s = .next t ∧
      (∀ k, k < 32 → (t.reg d).getLsbD k = ((s.reg d).getLsbD k != (s.reg r).getLsbD k)) ∧ WritesOnly s t d 2) ∧
  (∀ d r : Reg, DecodesAs [0x31, directModRM r.bits.toNat d.bits.toNat] (.xorRegReg d r)) ∧
  RejectsMemoryOperand 0x31

/-- R110: `89`, `0xC0 + 8*reg + rm`, length 2: `x[rm] <- x[reg]`, nothing else changes; MemoryOperand for mod ≠ 3. -/
def Obligations.MovRegRegRule : Prop :=
  (∀ (d r : Reg) (s : State),
    ∃ t, exec (.movRegReg d r) s = .next t ∧ t.reg d = s.reg r ∧ WritesOnly s t d 2) ∧
  (∀ d r : Reg, DecodesAs [0x89, directModRM r.bits.toNat d.bits.toNat] (.movRegReg d r)) ∧
  RejectsMemoryOperand 0x89

/-- R101: `81`, `0xC0 + rm`, the immediate, length 6: `x[rm] <- u32(x[rm] + imm)`, nothing else changes; MemoryOperand for mod ≠ 3;
UnsupportedOpcode for a sub-op that is no instruction; FetchOutOfBounds where the immediate at `start + 2` would pass the end of the
image. -/
def Obligations.AddRegImmRule : Prop :=
  (∀ (d : Reg) (v : Word) (s : State),
    ∃ t, exec (.addRegImm d v) s = .next t ∧ (t.reg d).toNat = ((s.reg d).toNat + v.toNat) % 2 ^ 32 ∧ WritesOnly s t d 6) ∧
  (∀ (d : Reg) (b0 b1 b2 b3 : Byte),
    DecodesAs [0x81, directModRM 0 d.bits.toNat, b0, b1, b2, b3] (.addRegImm d (imm32 b0 b1 b2 b3))) ∧
  (∀ d : Reg, ImmediateFetchFaults [0x81, directModRM 0 d.bits.toNat]) ∧
  RejectsMemoryOperand 0x81 ∧ (∀ sub : BitVec 3, sub ≠ 0#3 → sub ≠ 5#3 → sub ≠ 6#3 → RejectsSubOp 0x81 sub)

/-- R103: `81`, `0xE8 + rm`, the immediate, length 6: `x[rm] <- u32(x[rm] - imm)`, nothing else changes; faults as R101. -/
def Obligations.SubRegImmRule : Prop :=
  (∀ (d : Reg) (v : Word) (s : State),
    ∃ t, exec (.subRegImm d v) s = .next t ∧ ((t.reg d).toNat : Int) = (((s.reg d).toNat : Int) - v.toNat) % 2 ^ 32 ∧
      WritesOnly s t d 6) ∧
  (∀ (d : Reg) (b0 b1 b2 b3 : Byte),
    DecodesAs [0x81, directModRM 5 d.bits.toNat, b0, b1, b2, b3] (.subRegImm d (imm32 b0 b1 b2 b3))) ∧
  (∀ d : Reg, ImmediateFetchFaults [0x81, directModRM 5 d.bits.toNat]) ∧
  RejectsMemoryOperand 0x81 ∧ (∀ sub : BitVec 3, sub ≠ 0#3 → sub ≠ 5#3 → sub ≠ 6#3 → RejectsSubOp 0x81 sub)

/-- R105: `81`, `0xF0 + rm`, the immediate, length 6: `x[rm] <- x[rm] ^ imm`, nothing else changes; faults as R101. -/
def Obligations.XorRegImmRule : Prop :=
  (∀ (d : Reg) (v : Word) (s : State),
    ∃ t, exec (.xorRegImm d v) s = .next t ∧
      (∀ k, k < 32 → (t.reg d).getLsbD k = ((s.reg d).getLsbD k != v.getLsbD k)) ∧ WritesOnly s t d 6) ∧
  (∀ (d : Reg) (b0 b1 b2 b3 : Byte),
    DecodesAs [0x81, directModRM 6 d.bits.toNat, b0, b1, b2, b3] (.xorRegImm d (imm32 b0 b1 b2 b3))) ∧
  (∀ d : Reg, ImmediateFetchFaults [0x81, directModRM 6 d.bits.toNat]) ∧
  RejectsMemoryOperand 0x81 ∧ (∀ sub : BitVec 3, sub ≠ 0#3 → sub ≠ 5#3 → sub ≠ 6#3 → RejectsSubOp 0x81 sub)

/-- R111: `B8 + r`, the immediate, length 5: `x[r] <- imm`, nothing else changes; the only fault is
FetchOutOfBounds, where the immediate at `start + 1` would pass the end of the image. -/
def Obligations.MovRegImmRule : Prop :=
  (∀ (d : Reg) (v : Word) (s : State), ∃ t, exec (.movRegImm d v) s = .next t ∧ t.reg d = v ∧ WritesOnly s t d 5) ∧
  (∀ (d : Reg) (b0 b1 b2 b3 : Byte),
    DecodesAs [BitVec.ofNat 8 (0xB8 + d.bits.toNat), b0, b1, b2, b3] (.movRegImm d (imm32 b0 b1 b2 b3))) ∧
  (∀ d : Reg, ImmediateFetchFaults [BitVec.ofNat 8 (0xB8 + d.bits.toNat)])

/-- R115: `F7`, `0xD8 + rm`, length 2: `x[rm] <- u32(0 - x[rm])`, nothing else changes; MemoryOperand for mod ≠ 3; UnsupportedOpcode
for a reg field other than 2 and 3. -/
def Obligations.NegRegRule : Prop :=
  (∀ (d : Reg) (s : State),
    ∃ t, exec (.negReg d) s = .next t ∧ ((t.reg d).toNat : Int) = (0 - ((s.reg d).toNat : Int)) % 2 ^ 32 ∧
      WritesOnly s t d 2) ∧
  (∀ d : Reg, DecodesAs [0xF7, BitVec.ofNat 8 (0xD8 + d.bits.toNat)] (.negReg d)) ∧
  RejectsMemoryOperand 0xF7 ∧ (∀ sub : BitVec 3, sub ≠ 2#3 → sub ≠ 3#3 → RejectsSubOp 0xF7 sub)

/-- R116: `F7`, `0xD0 + rm`, length 2: `x[rm] <- 0xFFFFFFFF - x[rm]`, nothing else changes; faults as R115. -/
def Obligations.NotRegRule : Prop :=
  (∀ (d : Reg) (s : State),
    ∃ t, exec (.notReg d) s = .next t ∧ (t.reg d).toNat = 0xFFFFFFFF - (s.reg d).toNat ∧ WritesOnly s t d 2) ∧
  (∀ d : Reg, DecodesAs [0xF7, BitVec.ofNat 8 (0xD0 + d.bits.toNat)] (.notReg d)) ∧
  RejectsMemoryOperand 0xF7 ∧ (∀ sub : BitVec 3, sub ≠ 2#3 → sub ≠ 3#3 → RejectsSubOp 0xF7 sub)

/-- R120: `58 + r`, length 1: with an argument left, `x[r]` receives `args[argidx]` and the cursor moves on by one, and nothing else
changes; with none left, ArgumentSupplyExhausted with the position of the opcode byte and the cursor, and neither changes. -/
def Obligations.PopRegRule : Prop :=
  (∀ (d : Reg) (s : State) (h : s.argidx < s.args.length),
    ∃ t, exec (.popReg d) s = .next t ∧ t.reg d = s.args[s.argidx] ∧ (∀ r, r ≠ d → t.reg r = s.reg r) ∧
      t.argidx = s.argidx + 1 ∧ t.pc = s.pc + 1 ∧ t.args = s.args ∧ t.status = s.status ∧ t.result = s.result ∧
      t.fault = s.fault ∧ SamePlatform s t) ∧
  (∀ (d : Reg) (s : State), s.argidx ≥ s.args.length →
    ∃ t, exec (.popReg d) s = .next t ∧ TookFault s t (.argumentSupplyExhausted s.pc s.argidx)) ∧
  (∀ d : Reg, DecodesAs [BitVec.ofNat 8 (0x58 + d.bits.toNat)] (.popReg d))

/-- R106: sum and difference are exact values modulo 2^32, and reading the operands and the result as signed integers gives the
same 32 bits. The source's instances are among them. -/
def Obligations.ArithmeticIsModulo : Prop :=
  (∀ a b : Word,
    (aluAdd a b).toNat = (a.toNat + b.toNat) % 2 ^ 32 ∧
    ((aluSub a b).toNat : Int) = ((a.toNat : Int) - b.toNat) % 2 ^ 32 ∧
    aluAdd a b = u32 (i32 a + i32 b) ∧ aluSub a b = u32 (i32 a - i32 b) ∧
    (∀ k, k < 32 → (aluXor a b).getLsbD k = (a.getLsbD k != b.getLsbD k))) ∧
  aluAdd 0xFFFFFFFF 1 = 0 ∧ aluSub 0 1 = 0xFFFFFFFF

/-- R115, R116: NEG twice and NOT twice restore the register, and NOT followed by adding 1 leaves the registers that NEG leaves. -/
def Obligations.NegNotIdentities : Prop :=
  ∀ (d : Reg) (s : State),
    (∃ t u, exec (.negReg d) s = .next t ∧ exec (.negReg d) t = .next u ∧ u.regs = s.regs) ∧
    (∃ t u, exec (.notReg d) s = .next t ∧ exec (.notReg d) t = .next u ∧ u.regs = s.regs) ∧
    (∃ t u w, exec (.notReg d) s = .next t ∧ exec (.addRegImm d 1) t = .next u ∧ exec (.negReg d) s = .next w ∧
      u.regs = w.regs)

/-- Corner cases of R101 to R105 and R72: adding 0xFFFFFFFF is subtracting 1 and the reverse, XOR with 0xFFFFFFFF complements,
subtracting or exclusive-oring a register with itself clears it, and the same XOR twice restores it. -/
def Obligations.ArithmeticCornerCases : Prop :=
  ∀ (d : Reg) (s : State),
    exec (.addRegImm d 0xFFFFFFFF) s = exec (.subRegImm d 1) s ∧
    exec (.subRegImm d 0xFFFFFFFF) s = exec (.addRegImm d 1) s ∧
    (∃ t u, exec (.xorRegImm d 0xFFFFFFFF) s = .next t ∧ exec (.notReg d) s = .next u ∧ t.regs = u.regs) ∧
    (∃ t, exec (.subRegReg d d) s = .next t ∧ t.reg d = 0) ∧
    (∃ t, exec (.xorRegReg d d) s = .next t ∧ t.reg d = 0) ∧
    (∀ r, r ≠ d → ∃ t u, exec (.xorRegReg d r) s = .next t ∧ exec (.xorRegReg d r) t = .next u ∧ u.regs = s.regs)

/-! ### The markers and the faulting encodings -/

/-- The prolog, once matched, moves the cursor by 20 and starts the run; the epilog ends it with `x[0]` and is not consumed; neither
touches a register or the argument supply (40 R84, R86, R93). -/
def Obligations.MarkersActOnTheRun : Prop :=
  ∀ s : State,
    (∃ t, exec .prolog s = .next t ∧ t.pc = s.pc + 20 ∧ t.status = .running ∧ t.regs = s.regs ∧ t.args = s.args ∧
      t.argidx = s.argidx ∧ t.result = s.result ∧ t.fault = s.fault ∧ SamePlatform s t) ∧
    (∃ t, exec .epilog s = .next t ∧ t.pc = s.pc ∧ t.status = .done ∧ t.result = s.reg .eax ∧ t.regs = s.regs ∧
      t.args = s.args ∧ t.argidx = s.argidx ∧ t.fault = s.fault ∧ SamePlatform s t)

/-- Each of the table's twelve MemoryOperand rows takes that fault with the opcode and the ModRM byte of the row (60 R133). -/
def Obligations.MemoryOperandRows : Prop :=
  ∀ (s : State) (x : BitVec 7) (y : BitVec 6),
    (∃ t, exec (.memLow01 x) s = .next t ∧ TookFault s t (.memoryOperand s.pc 0x01 (x.setWidth 8))) ∧
    (∃ t, exec (.memTwo01 y) s = .next t ∧ TookFault s t (.memoryOperand s.pc 0x01 (0x80 + y.setWidth 8))) ∧
    (∃ t, exec (.memLow29 x) s = .next t ∧ TookFault s t (.memoryOperand s.pc 0x29 (x.setWidth 8))) ∧
    (∃ t, exec (.memTwo29 y) s = .next t ∧ TookFault s t (.memoryOperand s.pc 0x29 (0x80 + y.setWidth 8))) ∧
    (∃ t, exec (.memLow31 x) s = .next t ∧ TookFault s t (.memoryOperand s.pc 0x31 (x.setWidth 8))) ∧
    (∃ t, exec (.memTwo31 y) s = .next t ∧ TookFault s t (.memoryOperand s.pc 0x31 (0x80 + y.setWidth 8))) ∧
    (∃ t, exec (.memLow81 x) s = .next t ∧ TookFault s t (.memoryOperand s.pc 0x81 (x.setWidth 8))) ∧
    (∃ t, exec (.memTwo81 y) s = .next t ∧ TookFault s t (.memoryOperand s.pc 0x81 (0x80 + y.setWidth 8))) ∧
    (∃ t, exec (.memLow89 x) s = .next t ∧ TookFault s t (.memoryOperand s.pc 0x89 (x.setWidth 8))) ∧
    (∃ t, exec (.memTwo89 y) s = .next t ∧ TookFault s t (.memoryOperand s.pc 0x89 (0x80 + y.setWidth 8))) ∧
    (∃ t, exec (.memLowF7 x) s = .next t ∧ TookFault s t (.memoryOperand s.pc 0xF7 (x.setWidth 8))) ∧
    (∃ t, exec (.memTwoF7 y) s = .next t ∧ TookFault s t (.memoryOperand s.pc 0xF7 (0x80 + y.setWidth 8)))

/-- The rows of a bad sub-op and of any other first byte take UnsupportedOpcode with the opcode and the sub-op, if any
(60 R132). -/
def Obligations.UnsupportedOpcodeRows : Prop :=
  ∀ (s : State) (sub rm : BitVec 3) (op : Byte),
    (∃ t, exec (.badSub81 sub rm) s = .next t ∧ TookFault s t (.unsupportedOpcode s.pc 0x81 (some sub))) ∧
    (∃ t, exec (.badSubF7 sub rm) s = .next t ∧ TookFault s t (.unsupportedOpcode s.pc 0xF7 (some sub))) ∧
    (∃ t, exec (.otherByte op) s = .next t ∧ TookFault s t (.unsupportedOpcode s.pc op none))

/-! ### One step -/

/-- While a run is in progress, a step is `exec` of the instruction that the bytes at the cursor decode to; nothing is added around
`exec` (40 R85, R87). -/
def Obligations.StepRunsDecodedInstruction : Prop :=
  ∀ (s : State) (i : Instr), Running s → decodeBoundary (s.mem.window s.pc maxInstrBytes) = .ok i → step s = exec i s

/-- A step whose fetch finds too few bytes takes FetchOutOfBounds with the position and the size of that fetch (60 R135). -/
def Obligations.ShortFetchTakesFault : Prop :=
  ∀ (s : State) (off n : Nat), Running s →
    decodeBoundary (s.mem.window s.pc maxInstrBytes) = .error (.short off n) →
    ∃ t, step s = .next t ∧ TookFault s t (.fetchOutOfBounds (s.pc + off) n)

/-- R94: with fewer than four bytes left at a boundary, a step enters FAULTED with `FetchOutOfBounds(pc, 4)`, whatever the bytes
are. -/
def Obligations.BoundaryBeyondImage : Prop :=
  ∀ s : State, Running s → s.pc + 4 > s.mem.extent →
    ∃ t, step s = .next t ∧ TookFault s t (.fetchOutOfBounds s.pc 4)

/-- Inside the loop FetchOutOfBounds comes from the epilog compare at the boundary or from the immediate fetch of a MovRegImm at
`pc + 1` or of an `81` instruction at `pc + 2`, always for four bytes, and never from the fetch of an opcode or a ModRM byte
(60 R135). -/
def Obligations.OnlyBoundaryOrImmediateFetchFails : Prop :=
  ∀ (s t : State) (a n : Nat), Running s → step s = .next t → t.status = .faulted → t.fault = .fetchOutOfBounds a n →
    n = 4 ∧ a + 4 > s.mem.extent ∧
      (a = s.pc ∨
        (s.pc + 4 ≤ s.mem.extent ∧ a = s.pc + 1 ∧ ∃ op, s.mem.byteAt s.pc = some op ∧ 0xB8#8 ≤ op ∧ op ≤ 0xBF#8) ∨
        (s.pc + 4 ≤ s.mem.extent ∧ a = s.pc + 2 ∧ s.mem.byteAt s.pc = some 0x81))

/-- R86, R85: where the four epilog bytes stand at a boundary, a step ends the run with the value of `x[0]`, although `5E` alone would
decode as a pop; nothing is consumed, executed or popped. -/
def Obligations.EpilogEndsRun : Prop :=
  ∀ s : State, Running s → StandsAtPc s epilogBytes →
    ∃ t, step s = .next t ∧ t.status = .done ∧ t.result = s.reg .eax ∧ t.outcome = some (.done (s.reg .eax)) ∧
      t.pc = s.pc ∧ t.regs = s.regs ∧ t.args = s.args ∧ t.argidx = s.argidx ∧ SamePlatform s t

/-- R85's own instance, the word `B8 5E 5F 5B C3`: the epilog test is made at boundaries only, and as the four immediate bytes of
`mov eax` the same values are data. -/
def Obligations.EpilogBytesAsImmediate : Prop :=
  ∀ s : State, Running s → StandsAtPc s [0xB8, 0x5E, 0x5F, 0x5B, 0xC3] →
    ∃ t, step s = .next t ∧ t.status = .running ∧ t.reg .eax = 0xC35B5F5E ∧ t.pc = s.pc + 5

/-- R136, first row of R94: where `Resolve` does not map the RVA, an accepted `emulate` is reset and enters FAULTED with
AddressResolveFault; the cursor is not moved. -/
def Obligations.StartUnresolved : Prop :=
  ∀ (s : State) (q : Request), s.status ≠ .running → s.request = some q → resolveRva s.resolve q.startRva = none →
    ∃ t, step s = .next t ∧ RunReset s t q ∧ t.status = .faulted ∧ t.fault = .addressResolveFault q.startRva ∧ t.pc = s.pc

/-- Second row of R94: where the 20 bytes would pass the end of the image, the start enters FAULTED with `FetchOutOfBounds(p, 20)`. -/
def Obligations.StartBeyondImage : Prop :=
  ∀ (s : State) (q : Request) (p : Nat), s.status ≠ .running → s.request = some q →
    resolveRva s.resolve q.startRva = some p → p + 20 > s.mem.extent →
    ∃ t, step s = .next t ∧ RunReset s t q ∧ t.status = .faulted ∧ t.fault = .fetchOutOfBounds p 20

/-- R131, R84, third row of R94: a mismatch in any of the 20 bytes enters FAULTED with MissingProlog, with every register and the
argument cursor zero and the cursor at the start position. -/
def Obligations.StartWithoutProlog : Prop :=
  ∀ (s : State) (q : Request) (p : Nat), s.status ≠ .running → s.request = some q →
    resolveRva s.resolve q.startRva = some p → p + 20 ≤ s.mem.extent →
    (∃ k, k < 20 ∧ s.mem.byteAt (p + k) ≠ prologBytes[k]?) →
    ∃ t, step s = .next t ∧ RunReset s t q ∧ t.status = .faulted ∧ t.fault = .missingProlog q.startRva p ∧ t.pc = p

/-- R161, R84, fourth row of R94: where the prolog stands, the run is in progress with all registers zero, `argidx = 0` and the cursor
20 bytes further. -/
def Obligations.StartWithProlog : Prop :=
  ∀ (s : State) (q : Request) (p : Nat), s.status ≠ .running → s.request = some q →
    resolveRva s.resolve q.startRva = some p → s.mem.window p 20 = prologBytes →
    ∃ t, step s = .next t ∧ RunReset s t q ∧ t.status = .running ∧ t.pc = p + 20

/-- IDLE, DONE and FAULTED have no step of their own, and an `emulate` issued while a run is in progress has no transition
(40 R94, 60 R150). That the machine then stops with `noRequest`, or refuses with `emulateWhileRunning`, is the model's choice
(log 3, log 4). -/
def Obligations.StatesWithoutTransition : Prop :=
  ∀ s : State,
    (s.status ≠ .running → s.request = none → step s = .fault .noRequest) ∧
    (s.status = .running → s.request ≠ none → step s = .refused .emulateWhileRunning)

/-! ### Whole-machine rules -/

/-- Power-on: status IDLE and no outcome to read (10 R23, 70 R160). -/
def Obligations.ResetIsIdle : Prop := State.reset.status = .idle ∧ State.reset.outcome = none

/-- The invariant holds after power-on; the values it meets there are the model's (log 6, log 10). -/
def Obligations.ResetMeetsInvariant : Prop := Inv State.reset

/-- Every step keeps the invariant: the image stays canonical, the argument cursor stays inside the supply, and the cursor of a run in
progress or ended well stays inside the image (10 R15, R26). -/
def Obligations.StepKeepsInvariant : Prop := ∀ s t : State, Inv s → step s = .next t → Inv t

/-- No step writes the image, its extent or `Resolve` (20 R36, R38, R43). -/
def Obligations.StepKeepsPlatform : Prop :=
  ∀ s t : State, step s = .next t → t.mem = s.mem ∧ t.resolve = s.resolve ∧ ∀ a, t.mem.byteAt a = s.mem.byteAt a

/-- R94: RUNNING always has a step, and it leads to RUNNING, DONE or FAULTED. -/
def Obligations.RunningAlwaysSteps : Prop :=
  ∀ s : State, Running s → ∃ t, step s = .next t ∧ t.request = none ∧ (t.status = .running ∨ Ended t)

/-- R14: a step that stays in RUNNING has executed one of the eleven kinds, and the cursor has moved by exactly its length, which is
1, 2, 5 or 6. -/
def Obligations.CursorMovesByLength : Prop :=
  ∀ s t : State, Running s → step s = .next t → t.status = .running →
    ∃ i, decode (s.mem.window s.pc maxInstrBytes) = .ok i ∧ instrKind i ≠ none ∧ t.pc = s.pc + i.size ∧
      (i.size = 1 ∨ i.size = 2 ∨ i.size = 5 ∨ i.size = 6)

/-- R87, R140: a step of a run that ends in a fault has written neither a register nor the argument cursor nor the result latch. -/
def Obligations.FaultingStepIsPrecise : Prop :=
  ∀ s t : State, Running s → step s = .next t → t.status = .faulted →
    t.regs = s.regs ∧ t.argidx = s.argidx ∧ t.args = s.args ∧ t.result = s.result

/-- R15: no instruction changes the supply; only PopReg moves its cursor, by one, and the value passed over is what its register
receives. -/
def Obligations.OnlyPopTakesArguments : Prop :=
  ∀ (i : Instr) (s t : State), exec i s = .next t →
    t.args = s.args ∧
    (t.argidx = s.argidx ∨ ∃ d, i = .popReg d ∧ t.argidx = s.argidx + 1 ∧ s.args[s.argidx]? = some (t.reg d))

/-- R11: an instruction writes no register but its destination; the markers and the faulting encodings write none. -/
def Obligations.OnlyDestinationWritten : Prop :=
  ∀ (i : Instr) (s t : State) (r : Reg), exec i s = .next t → destination i ≠ some r → t.reg r = s.reg r

/-- R17: the result latch is written by the epilog only, and an instruction changes the status and the fault record by a fault
only. -/
def Obligations.StatusWrittenByRunAndFault : Prop :=
  ∀ (i : Instr) (s t : State), exec i s = .next t →
    (i ≠ .epilog → t.result = s.result) ∧
    (instrKind i ≠ none → t.status = s.status ∨ t.status = .faulted) ∧
    (t.fault ≠ s.fault → t.status = .faulted)

/-- Every iteration of the machine is the iteration of the spec's pseudocode: epilog compare, `decode()` with its fetches and its
order of tests, `execute` (40 R82, R85, R87, R94; 30 R59; 20 R34, R35; 60 R139). -/
def Obligations.StepIsPseudocode : Prop := ∀ s : State, Running s → step s = refIteration s

/-- R91: every run ends, within as many iterations as the image has bytes from the cursor on, and one more step to end it. -/
def Obligations.EveryRunEnds : Prop :=
  ∀ s : State, Running s →
    ∃ k t, 1 ≤ k ∧ k ≤ s.mem.extent - s.pc + 1 ∧ core.run k s = .next t ∧ Ended t

/-- R81, R142: an `emulate` accepted in IDLE, DONE or FAULTED answers DONE with a result or FAULTED with a record. -/
def Obligations.EmulateAlwaysAnswers : Prop :=
  ∀ (rva : Rva) (args : List Word) (s : State), s.status ≠ .running →
    ∃ t, emulate rva args s = .next t ∧ Ended t ∧
      ((∃ v, t.outcome = some (.done v)) ∨ (∃ f, t.outcome = some (.faulted f)))

/-- R167, R143: the outcome of `emulate` is a function of the image, `Resolve`, the start address and the arguments alone: two
instances that agree on the platform give the same outcome, whatever earlier runs left in them. -/
def Obligations.EmulateIgnoresThePast : Prop :=
  ∀ (rva : Rva) (args : List Word) (s u : State), s.status ≠ .running → u.status ≠ .running → s.mem = u.mem →
    s.resolve = u.resolve →
    ∃ t w, emulate rva args s = .next t ∧ emulate rva args u = .next w ∧ t.outcome = w.outcome

end
end

