-- ==== Sys2Proof/Laws/Decode.lean ====
section
/-! SUPPORT. The small lemmas of the bit fields and of the decoder's parts, so that no proof about decoding unfolds them again. -/

namespace Sys2Proof

@[simp] theorem Reg.ofBits_bits (r : Reg) : Reg.ofBits r.bits = r := by cases r <;> rfl

@[simp] theorem Reg.bits_ofBits (c : BitVec 3) : (Reg.ofBits c).bits = c := by revert c; decide

/-- The three fields of a ModRM byte built from three fields. -/
theorem modRM_fields (mod : BitVec 2) (reg rm : BitVec 3) :
    modField (modRM mod reg rm) = mod ∧ regField (modRM mod reg rm) = reg ∧ rmField (modRM mod reg rm) = rm := by
  revert mod reg rm
  decide

@[simp] theorem modField_modRM (mod : BitVec 2) (reg rm : BitVec 3) : modField (modRM mod reg rm) = mod :=
  (modRM_fields mod reg rm).1

@[simp] theorem regField_modRM (mod : BitVec 2) (reg rm : BitVec 3) : regField (modRM mod reg rm) = reg :=
  (modRM_fields mod reg rm).2.1

@[simp] theorem rmField_modRM (mod : BitVec 2) (reg rm : BitVec 3) : rmField (modRM mod reg rm) = rm :=
  (modRM_fields mod reg rm).2.2

/-- A ModRM byte is built from its own fields. -/
theorem modRM_of_fields (m : Byte) : modRM (modField m) (regField m) (rmField m) = m := by
  revert m
  decide

/-- A one-byte or OI opcode is built from its high bits and its register. -/
theorem opHigh_append (m : Byte) : opHigh m ++ rmField m = m := by
  revert m
  decide

theorem opHigh_of_append (h : BitVec 5) (c : BitVec 3) : opHigh (h ++ c) = h ∧ rmField (h ++ c) = c := by
  revert h c
  decide

/-- Bits 7:3 are `01011` exactly for the bytes 58 to 5F (30 R51, R63). -/
theorem opHigh_pop_iff (op : Byte) : opHigh op = 0b01011#5 ↔ 0x58#8 ≤ op ∧ op ≤ 0x5F#8 := by
  revert op
  decide

/-- Bits 7:3 are `10111` exactly for the bytes B8 to BF (30 R53, R64). -/
theorem opHigh_mov_iff (op : Byte) : opHigh op = 0b10111#5 ↔ 0xB8#8 ≤ op ∧ op ≤ 0xBF#8 := by
  revert op
  decide

/-- The value of an immediate, written out. -/
theorem imm32_toNat (b0 b1 b2 b3 : Byte) :
    (imm32 b0 b1 b2 b3).toNat = b0.toNat + 256 * b1.toNat + 65536 * b2.toNat + 16777216 * b3.toNat := by
  have := b0.isLt; have := b1.isLt; have := b2.isLt; have := b3.isLt
  simp only [imm32, leNat, BitVec.toNat_ofNat]
  omega

/-- An immediate is assembled from its own bytes. -/
theorem imm32_imm32Bytes (v : Word) :
    imm32 (v.extractLsb' 0 8) (v.extractLsb' 8 8) (v.extractLsb' 16 8) (v.extractLsb' 24 8) = v := by
  apply BitVec.eq_of_toNat_eq
  have := v.isLt
  simp only [imm32_toNat, BitVec.extractLsb'_toNat, Nat.shiftRight_eq_div_pow]
  omega

/-- The bytes of an assembled immediate are the bytes it was assembled from. -/
theorem imm32Bytes_imm32 (b0 b1 b2 b3 : Byte) : imm32Bytes (imm32 b0 b1 b2 b3) = [b0, b1, b2, b3] := by
  have := b0.isLt; have := b1.isLt; have := b2.isLt; have := b3.isLt
  have key : ∀ (k : Nat) (b : Byte), (imm32 b0 b1 b2 b3).toNat / 2 ^ k % 256 = b.toNat →
      (imm32 b0 b1 b2 b3).extractLsb' k 8 = b := fun k b h => by
    apply BitVec.eq_of_toNat_eq
    simpa only [BitVec.extractLsb'_toNat, Nat.shiftRight_eq_div_pow] using h
  have h0 := key 0 b0 (by rw [imm32_toNat]; omega)
  have h1 := key 8 b1 (by rw [imm32_toNat]; omega)
  have h2 := key 16 b2 (by rw [imm32_toNat]; omega)
  have h3 := key 24 b3 (by rw [imm32_toNat]; omega)
  simp only [imm32Bytes, h0, h1, h2, h3]

/-! ### The parts of the decoder -/

section

variable {low : BitVec 7 → Instr} {two : BitVec 6 → Instr}
  {direct : BitVec 3 → BitVec 3 → List Byte → Except DecodeStop Instr}

/-- A register-direct ModRM byte hands its fields and the rest on. -/
theorem decodeModRM_direct (reg rm : BitVec 3) (tail : List Byte) :
    decodeModRM (modRM 3#2 reg rm :: tail) low two direct = direct reg rm tail := by
  simp [decodeModRM]

/-- What the ModRM part answers for a byte, by its mod (30 R57). -/
theorem decodeModRM_cons (m : Byte) (tail : List Byte) :
    decodeModRM (m :: tail) low two direct =
      if modField m = 3#2 then direct (regField m) (rmField m) tail
      else if modField m = 2#2 then .ok (two (m.extractLsb' 0 6)) else .ok (low (m.extractLsb' 0 7)) := rfl

end

/-- Four bytes give the immediate. -/
theorem decodeImm_cons (off : Nat) (b0 b1 b2 b3 : Byte) (tail : List Byte) (k : Word → Instr) :
    decodeImm off (b0 :: b1 :: b2 :: b3 :: tail) k = .ok (k (imm32 b0 b1 b2 b3)) := rfl

/-- Fewer than four bytes are a short fetch. -/
theorem decodeImm_short {off : Nat} {rest : List Byte} {k : Word → Instr} (h : rest.length < 4) :
    decodeImm off rest k = .error (.short off 4) := by
  match rest, h with
  | [], _ => rfl
  | [_], _ => rfl
  | [_, _], _ => rfl
  | [_, _, _], _ => rfl

/-- Four bytes or more: what the immediate part answers. -/
theorem decodeImm_cases (off : Nat) (rest : List Byte) (k : Word → Instr) :
    (rest.length < 4 ∧ decodeImm off rest k = .error (.short off 4)) ∨
      ∃ b0 b1 b2 b3 tail, rest = b0 :: b1 :: b2 :: b3 :: tail ∧ decodeImm off rest k = .ok (k (imm32 b0 b1 b2 b3)) := by
  match rest with
  | [] => exact .inl ⟨by simp, rfl⟩
  | [_] => exact .inl ⟨by simp, rfl⟩
  | [_, _] => exact .inl ⟨by simp, rfl⟩
  | [_, _, _] => exact .inl ⟨by simp, rfl⟩
  | b0 :: b1 :: b2 :: b3 :: tail => exact .inr ⟨b0, b1, b2, b3, tail, rfl, rfl⟩

/-- What stands at a boundary: too few bytes, the epilog, or what `decode()` answers (40 R85). -/
theorem decodeBoundary_cases (bs : List Byte) :
    (bs.length < 4 ∧ decodeBoundary bs = .error (.short 0 4)) ∨
      (4 ≤ bs.length ∧ bs.take 4 = epilogBytes ∧ decodeBoundary bs = .ok .epilog) ∨
      (4 ≤ bs.length ∧ bs.take 4 ≠ epilogBytes ∧ decodeBoundary bs = decode bs) := by
  unfold decodeBoundary
  by_cases h : bs.length < 4
  · simp [h]
  · by_cases h' : bs.take 4 = epilogBytes
    · simp [h, h', Nat.le_of_not_lt h]
    · simp [h, h', Nat.le_of_not_lt h]

end Sys2Proof
end

