-- ==== Sys2Proof/Laws/State.lean ====
section
/-! SUPPORT. One lemma per field per state update of Ops.lean, each true by definition. -/

namespace Sys2Proof.Machine

variable (s : State)

@[simp] theorem State.setReg_regs (r : Reg) (v : Word) : (s.setReg r v).regs = s.regs.set r v := rfl
@[simp] theorem State.setReg_pc (r : Reg) (v : Word) : (s.setReg r v).pc = s.pc := rfl
@[simp] theorem State.setReg_args (r : Reg) (v : Word) : (s.setReg r v).args = s.args := rfl
@[simp] theorem State.setReg_argidx (r : Reg) (v : Word) : (s.setReg r v).argidx = s.argidx := rfl
@[simp] theorem State.setReg_status (r : Reg) (v : Word) : (s.setReg r v).status = s.status := rfl
@[simp] theorem State.setReg_result (r : Reg) (v : Word) : (s.setReg r v).result = s.result := rfl
@[simp] theorem State.setReg_fault (r : Reg) (v : Word) : (s.setReg r v).fault = s.fault := rfl
@[simp] theorem State.setReg_mem (r : Reg) (v : Word) : (s.setReg r v).mem = s.mem := rfl
@[simp] theorem State.setReg_resolve (r : Reg) (v : Word) : (s.setReg r v).resolve = s.resolve := rfl
@[simp] theorem State.setReg_request (r : Reg) (v : Word) : (s.setReg r v).request = s.request := rfl

@[simp] theorem State.advance_regs (n : Nat) : (s.advance n).regs = s.regs := rfl
@[simp] theorem State.advance_pc (n : Nat) : (s.advance n).pc = s.pc + n := rfl
@[simp] theorem State.advance_args (n : Nat) : (s.advance n).args = s.args := rfl
@[simp] theorem State.advance_argidx (n : Nat) : (s.advance n).argidx = s.argidx := rfl
@[simp] theorem State.advance_status (n : Nat) : (s.advance n).status = s.status := rfl
@[simp] theorem State.advance_result (n : Nat) : (s.advance n).result = s.result := rfl
@[simp] theorem State.advance_fault (n : Nat) : (s.advance n).fault = s.fault := rfl
@[simp] theorem State.advance_mem (n : Nat) : (s.advance n).mem = s.mem := rfl
@[simp] theorem State.advance_resolve (n : Nat) : (s.advance n).resolve = s.resolve := rfl
@[simp] theorem State.advance_request (n : Nat) : (s.advance n).request = s.request := rfl
@[simp] theorem State.advance_reg (n : Nat) (x : Reg) : (s.advance n).reg x = s.reg x := rfl

@[simp] theorem State.seek_regs (p : Nat) : (s.seek p).regs = s.regs := rfl
@[simp] theorem State.seek_pc (p : Nat) : (s.seek p).pc = p := rfl
@[simp] theorem State.seek_args (p : Nat) : (s.seek p).args = s.args := rfl
@[simp] theorem State.seek_argidx (p : Nat) : (s.seek p).argidx = s.argidx := rfl
@[simp] theorem State.seek_status (p : Nat) : (s.seek p).status = s.status := rfl
@[simp] theorem State.seek_result (p : Nat) : (s.seek p).result = s.result := rfl
@[simp] theorem State.seek_fault (p : Nat) : (s.seek p).fault = s.fault := rfl
@[simp] theorem State.seek_mem (p : Nat) : (s.seek p).mem = s.mem := rfl
@[simp] theorem State.seek_resolve (p : Nat) : (s.seek p).resolve = s.resolve := rfl
@[simp] theorem State.seek_request (p : Nat) : (s.seek p).request = s.request := rfl
@[simp] theorem State.seek_reg (p : Nat) (x : Reg) : (s.seek p).reg x = s.reg x := rfl

@[simp] theorem State.takeArg_regs : (s.takeArg).regs = s.regs := rfl
@[simp] theorem State.takeArg_pc : (s.takeArg).pc = s.pc := rfl
@[simp] theorem State.takeArg_args : (s.takeArg).args = s.args := rfl
@[simp] theorem State.takeArg_argidx : (s.takeArg).argidx = s.argidx + 1 := rfl
@[simp] theorem State.takeArg_status : (s.takeArg).status = s.status := rfl
@[simp] theorem State.takeArg_result : (s.takeArg).result = s.result := rfl
@[simp] theorem State.takeArg_fault : (s.takeArg).fault = s.fault := rfl
@[simp] theorem State.takeArg_mem : (s.takeArg).mem = s.mem := rfl
@[simp] theorem State.takeArg_resolve : (s.takeArg).resolve = s.resolve := rfl
@[simp] theorem State.takeArg_request : (s.takeArg).request = s.request := rfl
@[simp] theorem State.takeArg_reg (x : Reg) : (s.takeArg).reg x = s.reg x := rfl

@[simp] theorem State.raise_regs (f : FaultRecord) : (s.raise f).regs = s.regs := rfl
@[simp] theorem State.raise_pc (f : FaultRecord) : (s.raise f).pc = s.pc := rfl
@[simp] theorem State.raise_args (f : FaultRecord) : (s.raise f).args = s.args := rfl
@[simp] theorem State.raise_argidx (f : FaultRecord) : (s.raise f).argidx = s.argidx := rfl
@[simp] theorem State.raise_status (f : FaultRecord) : (s.raise f).status = .faulted := rfl
@[simp] theorem State.raise_result (f : FaultRecord) : (s.raise f).result = s.result := rfl
@[simp] theorem State.raise_fault (f : FaultRecord) : (s.raise f).fault = f := rfl
@[simp] theorem State.raise_mem (f : FaultRecord) : (s.raise f).mem = s.mem := rfl
@[simp] theorem State.raise_resolve (f : FaultRecord) : (s.raise f).resolve = s.resolve := rfl
@[simp] theorem State.raise_request (f : FaultRecord) : (s.raise f).request = s.request := rfl
@[simp] theorem State.raise_reg (f : FaultRecord) (x : Reg) : (s.raise f).reg x = s.reg x := rfl

@[simp] theorem State.runReset_regs (a : List Word) : (s.runReset a).regs = Regs.zero := rfl
@[simp] theorem State.runReset_pc (a : List Word) : (s.runReset a).pc = s.pc := rfl
@[simp] theorem State.runReset_args (a : List Word) : (s.runReset a).args = a := rfl
@[simp] theorem State.runReset_argidx (a : List Word) : (s.runReset a).argidx = 0 := rfl
@[simp] theorem State.runReset_status (a : List Word) : (s.runReset a).status = s.status := rfl
@[simp] theorem State.runReset_result (a : List Word) : (s.runReset a).result = s.result := rfl
@[simp] theorem State.runReset_fault (a : List Word) : (s.runReset a).fault = s.fault := rfl
@[simp] theorem State.runReset_mem (a : List Word) : (s.runReset a).mem = s.mem := rfl
@[simp] theorem State.runReset_resolve (a : List Word) : (s.runReset a).resolve = s.resolve := rfl
@[simp] theorem State.runReset_request (a : List Word) : (s.runReset a).request = none := rfl

@[simp] theorem State.begin_regs : (s.begin).regs = s.regs := rfl
@[simp] theorem State.begin_pc : (s.begin).pc = s.pc := rfl
@[simp] theorem State.begin_args : (s.begin).args = s.args := rfl
@[simp] theorem State.begin_argidx : (s.begin).argidx = s.argidx := rfl
@[simp] theorem State.begin_status : (s.begin).status = .running := rfl
@[simp] theorem State.begin_result : (s.begin).result = s.result := rfl
@[simp] theorem State.begin_fault : (s.begin).fault = s.fault := rfl
@[simp] theorem State.begin_mem : (s.begin).mem = s.mem := rfl
@[simp] theorem State.begin_resolve : (s.begin).resolve = s.resolve := rfl
@[simp] theorem State.begin_request : (s.begin).request = s.request := rfl
@[simp] theorem State.begin_reg (x : Reg) : (s.begin).reg x = s.reg x := rfl

@[simp] theorem State.finish_regs : (s.finish).regs = s.regs := rfl
@[simp] theorem State.finish_pc : (s.finish).pc = s.pc := rfl
@[simp] theorem State.finish_args : (s.finish).args = s.args := rfl
@[simp] theorem State.finish_argidx : (s.finish).argidx = s.argidx := rfl
@[simp] theorem State.finish_status : (s.finish).status = .done := rfl
@[simp] theorem State.finish_result : (s.finish).result = s.reg .eax := rfl
@[simp] theorem State.finish_fault : (s.finish).fault = s.fault := rfl
@[simp] theorem State.finish_mem : (s.finish).mem = s.mem := rfl
@[simp] theorem State.finish_resolve : (s.finish).resolve = s.resolve := rfl
@[simp] theorem State.finish_request : (s.finish).request = s.request := rfl
@[simp] theorem State.finish_reg (x : Reg) : (s.finish).reg x = s.reg x := rfl

@[simp] theorem State.submit_regs (q : Request) : (s.submit q).regs = s.regs := rfl
@[simp] theorem State.submit_pc (q : Request) : (s.submit q).pc = s.pc := rfl
@[simp] theorem State.submit_args (q : Request) : (s.submit q).args = s.args := rfl
@[simp] theorem State.submit_argidx (q : Request) : (s.submit q).argidx = s.argidx := rfl
@[simp] theorem State.submit_status (q : Request) : (s.submit q).status = s.status := rfl
@[simp] theorem State.submit_result (q : Request) : (s.submit q).result = s.result := rfl
@[simp] theorem State.submit_fault (q : Request) : (s.submit q).fault = s.fault := rfl
@[simp] theorem State.submit_mem (q : Request) : (s.submit q).mem = s.mem := rfl
@[simp] theorem State.submit_resolve (q : Request) : (s.submit q).resolve = s.resolve := rfl
@[simp] theorem State.submit_request (q : Request) : (s.submit q).request = some q := rfl
@[simp] theorem State.submit_reg (q : Request) (x : Reg) : (s.submit q).reg x = s.reg x := rfl

/-- Reading a register after a write: the value written at that register, the old value elsewhere. -/
theorem Regs.get_set (x : Regs) (r q : Reg) (v : Word) : (x.set r v).get q = if q = r then v else x.get q := by
  cases r <;> cases q <;> rfl

@[simp] theorem Regs.get_set_same (x : Regs) (r : Reg) (v : Word) : (x.set r v).get r = v := by
  rw [Regs.get_set, if_pos rfl]

theorem Regs.get_set_other (x : Regs) {r q : Reg} (v : Word) (h : q ≠ r) : (x.set r v).get q = x.get q := by
  rw [Regs.get_set, if_neg h]

@[simp] theorem Regs.zero_get (r : Reg) : Regs.zero.get r = 0 := by cases r <;> rfl

/-- Register files that read alike at every register are equal. -/
theorem Regs.ext_get {x y : Regs} (h : ∀ r, x.get r = y.get r) : x = y := by
  cases x
  cases y
  have := h .eax; have := h .ecx; have := h .edx; have := h .ebx
  have := h .esp; have := h .ebp; have := h .esi; have := h .edi
  simp_all [Regs.get]

@[simp] theorem State.setReg_reg_same (r : Reg) (v : Word) : (s.setReg r v).reg r = v := Regs.get_set_same _ _ _

theorem State.setReg_reg_other {r q : Reg} (v : Word) (h : q ≠ r) : (s.setReg r v).reg q = s.reg q :=
  Regs.get_set_other _ _ h

@[simp] theorem State.runReset_reg (a : List Word) (x : Reg) : (s.runReset a).reg x = 0 := Regs.zero_get x

end Sys2Proof.Machine
end

