-- ==== Sys2Proof/Laws/Exec.lean ====
section
/-! SUPPORT. The specification lemmas of the shared operations, and, once and for all, everything that executing an instruction can
do. -/

namespace Sys2Proof.Machine

theorem memRead_short {m : Memory} {a n : Nat} (h : a + n > m.extent) : memRead m a n = .error (.fetchOutOfBounds a n) :=
  if_pos h

theorem memRead_inside {m : Memory} {a n : Nat} (h : a + n ≤ m.extent) : memRead m a n = .ok (leNat (m.window a n)) :=
  if_neg (Nat.not_lt.mpr h)

theorem peek_short {p : List Byte} {s : State} (h : s.pc + p.length > s.mem.extent) :
    peek p s = .error (.fetchOutOfBounds s.pc p.length) := if_pos h

theorem peek_inside {p : List Byte} {s : State} (h : s.pc + p.length ≤ s.mem.extent) :
    peek p s = .ok (s.mem.window s.pc p.length == p) := if_neg (Nat.not_lt.mpr h)

@[simp] theorem operandValue_reg (s : State) (r : Reg) : operandValue s (.reg r) = s.reg r := rfl

@[simp] theorem operandValue_imm (s : State) (v : Word) : operandValue s (.imm v) = v := rfl

@[simp] theorem writeOperand_reg (r : Reg) (v : Word) (s : State) : writeOperand (.reg r) v s = .next (s.setReg r v) := rfl

@[simp] theorem writeOperand_imm (w v : Word) (s : State) : writeOperand (.imm w) v s = .next (s.raise .internalError) := rfl

/-- A two-operand instruction reads both operands before it writes (40 R87). -/
theorem execBinary_reg (f : Word → Word → Word) (n : Nat) (d : Reg) (src : Operand) (s : State) :
    execBinary f n (.reg d) src s = .next ((s.advance n).setReg d (f (s.reg d) (operandValue s src))) := rfl

theorem execUnary_reg (f : Word → Word) (n : Nat) (d : Reg) (s : State) :
    execUnary f n (.reg d) s = .next ((s.advance n).setReg d (f (s.reg d))) := rfl

theorem execPopReg_some {s : State} {v : Word} (d : Reg) (h : s.args[s.argidx]? = some v) :
    execPopReg d s = .next ((s.takeArg.advance 1).setReg d v) := by
  simp [execPopReg, h]

theorem execPopReg_none {s : State} (d : Reg) (h : s.args[s.argidx]? = none) :
    execPopReg d s = .next ((s.advance 1).raise (.argumentSupplyExhausted s.pc s.argidx)) := by
  simp [execPopReg, h]

/-! ### What each instruction does, in the shared operations -/

theorem exec_prolog (s : State) :
    exec .prolog s = .next (s.advance 20).begin := rfl

theorem exec_epilog (s : State) :
    exec .epilog s = .next s.finish := rfl

theorem exec_addRegReg (d r : Reg) (s : State) :
    exec (.addRegReg d r) s = .next ((s.advance 2).setReg d (aluAdd (s.reg d) (s.reg r))) := rfl

theorem exec_subRegReg (d r : Reg) (s : State) :
    exec (.subRegReg d r) s = .next ((s.advance 2).setReg d (aluSub (s.reg d) (s.reg r))) := rfl

theorem exec_xorRegReg (d r : Reg) (s : State) :
    exec (.xorRegReg d r) s = .next ((s.advance 2).setReg d (aluXor (s.reg d) (s.reg r))) := rfl

theorem exec_movRegReg (d r : Reg) (s : State) :
    exec (.movRegReg d r) s = .next ((s.advance 2).setReg d (aluMov (s.reg d) (s.reg r))) := rfl

theorem exec_addRegImm (d : Reg) (v : Word) (s : State) :
    exec (.addRegImm d v) s = .next ((s.advance 6).setReg d (aluAdd (s.reg d) v)) := rfl

theorem exec_subRegImm (d : Reg) (v : Word) (s : State) :
    exec (.subRegImm d v) s = .next ((s.advance 6).setReg d (aluSub (s.reg d) v)) := rfl

theorem exec_xorRegImm (d : Reg) (v : Word) (s : State) :
    exec (.xorRegImm d v) s = .next ((s.advance 6).setReg d (aluXor (s.reg d) v)) := rfl

theorem exec_movRegImm (d : Reg) (v : Word) (s : State) :
    exec (.movRegImm d v) s = .next ((s.advance 5).setReg d (aluMov (s.reg d) v)) := rfl

theorem exec_notReg (d : Reg) (s : State) :
    exec (.notReg d) s = .next ((s.advance 2).setReg d (aluNot (s.reg d))) := rfl

theorem exec_negReg (d : Reg) (s : State) :
    exec (.negReg d) s = .next ((s.advance 2).setReg d (aluNeg (s.reg d))) := rfl

theorem exec_popReg (d : Reg) (s : State) :
    exec (.popReg d) s = execPopReg d s := rfl

theorem exec_memLow01 (x : BitVec 7) (s : State) :
    exec (.memLow01 x) s = .next ((s.advance 2).raise (.memoryOperand s.pc 0x01 (0#1 ++ x))) := rfl

theorem exec_memTwo01 (x : BitVec 6) (s : State) :
    exec (.memTwo01 x) s = .next ((s.advance 2).raise (.memoryOperand s.pc 0x01 (2#2 ++ x))) := rfl

theorem exec_memLow29 (x : BitVec 7) (s : State) :
    exec (.memLow29 x) s = .next ((s.advance 2).raise (.memoryOperand s.pc 0x29 (0#1 ++ x))) := rfl

theorem exec_memTwo29 (x : BitVec 6) (s : State) :
    exec (.memTwo29 x) s = .next ((s.advance 2).raise (.memoryOperand s.pc 0x29 (2#2 ++ x))) := rfl

theorem exec_memLow31 (x : BitVec 7) (s : State) :
    exec (.memLow31 x) s = .next ((s.advance 2).raise (.memoryOperand s.pc 0x31 (0#1 ++ x))) := rfl

theorem exec_memTwo31 (x : BitVec 6) (s : State) :
    exec (.memTwo31 x) s = .next ((s.advance 2).raise (.memoryOperand s.pc 0x31 (2#2 ++ x))) := rfl

theorem exec_memLow81 (x : BitVec 7) (s : State) :
    exec (.memLow81 x) s = .next ((s.advance 2).raise (.memoryOperand s.pc 0x81 (0#1 ++ x))) := rfl

theorem exec_memTwo81 (x : BitVec 6) (s : State) :
    exec (.memTwo81 x) s = .next ((s.advance 2).raise (.memoryOperand s.pc 0x81 (2#2 ++ x))) := rfl

theorem exec_memLow89 (x : BitVec 7) (s : State) :
    exec (.memLow89 x) s = .next ((s.advance 2).raise (.memoryOperand s.pc 0x89 (0#1 ++ x))) := rfl

theorem exec_memTwo89 (x : BitVec 6) (s : State) :
    exec (.memTwo89 x) s = .next ((s.advance 2).raise (.memoryOperand s.pc 0x89 (2#2 ++ x))) := rfl

theorem exec_memLowF7 (x : BitVec 7) (s : State) :
    exec (.memLowF7 x) s = .next ((s.advance 2).raise (.memoryOperand s.pc 0xF7 (0#1 ++ x))) := rfl

theorem exec_memTwoF7 (x : BitVec 6) (s : State) :
    exec (.memTwoF7 x) s = .next ((s.advance 2).raise (.memoryOperand s.pc 0xF7 (2#2 ++ x))) := rfl

theorem exec_badSub81 (sub rm : BitVec 3) (s : State) :
    exec (.badSub81 sub rm) s = .next ((s.advance 2).raise (.unsupportedOpcode s.pc 0x81 (some sub))) := rfl

theorem exec_badSubF7 (sub rm : BitVec 3) (s : State) :
    exec (.badSubF7 sub rm) s = .next ((s.advance 2).raise (.unsupportedOpcode s.pc 0xF7 (some sub))) := rfl

theorem exec_otherByte (op : Byte) (s : State) :
    exec (.otherByte op) s = .next ((s.advance 1).raise (.unsupportedOpcode s.pc op none)) := rfl

/-- Everything executing an instruction can do: it always answers a next state, which is a write of one register, a pop, a fault,
the start of a run or its end. -/
theorem exec_cases (i : Instr) (s : State) :
    (∃ d v, operand1 i = some (.reg d) ∧ instrKind i ≠ none ∧ exec i s = .next ((s.advance i.size).setReg d v)) ∨
      (∃ d v, i = .popReg d ∧ s.args[s.argidx]? = some v ∧ exec i s = .next ((s.takeArg.advance 1).setReg d v)) ∨
      (∃ f, i ≠ .prolog ∧ i ≠ .epilog ∧ exec i s = .next ((s.advance i.size).raise f)) ∨
      (i = .prolog ∧ exec i s = .next (s.advance 20).begin) ∨
      (i = .epilog ∧ exec i s = .next s.finish) := by
  cases i with
  | popReg d =>
    cases h : s.args[s.argidx]? with
    | some v => exact .inr (.inl ⟨d, v, rfl, rfl, execPopReg_some d h⟩)
    | none => exact .inr (.inr (.inl ⟨_, nofun, nofun, execPopReg_none d h⟩))
  | prolog => exact .inr (.inr (.inr (.inl ⟨rfl, rfl⟩)))
  | epilog => exact .inr (.inr (.inr (.inr ⟨rfl, rfl⟩)))
  | addRegReg d _ => exact .inl ⟨d, _, rfl, nofun, rfl⟩
  | subRegReg d _ => exact .inl ⟨d, _, rfl, nofun, rfl⟩
  | xorRegReg d _ => exact .inl ⟨d, _, rfl, nofun, rfl⟩
  | movRegReg d _ => exact .inl ⟨d, _, rfl, nofun, rfl⟩
  | addRegImm d _ => exact .inl ⟨d, _, rfl, nofun, rfl⟩
  | subRegImm d _ => exact .inl ⟨d, _, rfl, nofun, rfl⟩
  | xorRegImm d _ => exact .inl ⟨d, _, rfl, nofun, rfl⟩
  | movRegImm d _ => exact .inl ⟨d, _, rfl, nofun, rfl⟩
  | notReg d => exact .inl ⟨d, _, rfl, nofun, rfl⟩
  | negReg d => exact .inl ⟨d, _, rfl, nofun, rfl⟩
  | memLow01 _ | memTwo01 _ | memLow29 _ | memTwo29 _ | memLow31 _ | memTwo31 _ =>
    exact .inr (.inr (.inl ⟨_, nofun, nofun, rfl⟩))
  | memLow81 _ | memTwo81 _ | memLow89 _ | memTwo89 _ | memLowF7 _ | memTwoF7 _ =>
    exact .inr (.inr (.inl ⟨_, nofun, nofun, rfl⟩))
  | badSub81 _ _ | badSubF7 _ _ | otherByte _ => exact .inr (.inr (.inl ⟨_, nofun, nofun, rfl⟩))

/-- One iteration: what stands at the boundary is executed, or its fetch was short (40 R94). -/
theorem runStep_cases (s : State) :
    (∃ i, decodeBoundary (s.mem.window s.pc maxInstrBytes) = .ok i ∧ runStep s = exec i s) ∨
      (∃ off n, decodeBoundary (s.mem.window s.pc maxInstrBytes) = .error (.short off n) ∧
        runStep s = .next ((s.advance off).raise (.fetchOutOfBounds (s.pc + off) n))) := by
  unfold runStep
  cases h : decodeBoundary (s.mem.window s.pc maxInstrBytes) with
  | ok i => exact .inl ⟨i, rfl, rfl⟩
  | error e =>
    cases e with
    | short off n => exact .inr ⟨off, n, rfl, rfl⟩

/-- Everything the start of a run can do (40 R94, the first four rows). -/
theorem startRun_cases (q : Request) (s : State) :
    (resolveRva s.resolve q.startRva = none ∧
        startRun q s = .next ((s.runReset q.args).raise (.addressResolveFault q.startRva))) ∨
      (∃ p, resolveRva s.resolve q.startRva = some p ∧
        ((p + 20 > s.mem.extent ∧
            startRun q s = .next (((s.runReset q.args).seek p).raise (.fetchOutOfBounds p 20))) ∨
          (p + 20 ≤ s.mem.extent ∧ s.mem.window p 20 ≠ prologBytes ∧
            startRun q s = .next (((s.runReset q.args).seek p).raise (.missingProlog q.startRva p))) ∨
          (p + 20 ≤ s.mem.extent ∧ s.mem.window p 20 = prologBytes ∧
            startRun q s = .next (((s.runReset q.args).seek p).advance 20).begin))) := by
  unfold startRun
  cases h : resolveRva s.resolve q.startRva with
  | none => exact .inl ⟨rfl, rfl⟩
  | some p =>
    refine .inr ⟨p, rfl, ?_⟩
    have hl : prologBytes.length = 20 := rfl
    by_cases hx : p + 20 > s.mem.extent
    · refine .inl ⟨hx, ?_⟩
      simp only [peek_short (p := prologBytes) (s := (s.runReset q.args).seek p) hx]
      rfl
    · have hx' : p + 20 ≤ s.mem.extent := Nat.le_of_not_lt hx
      simp only [peek_inside (p := prologBytes) (s := (s.runReset q.args).seek p) hx']
      by_cases hw : s.mem.window p 20 = prologBytes
      · refine .inr (.inr ⟨hx', hw, ?_⟩)
        have : (((s.runReset q.args).seek p).mem.window ((s.runReset q.args).seek p).pc prologBytes.length == prologBytes) = true :=
          beq_iff_eq.mpr hw
        rw [this]
        rfl
      · refine .inr (.inl ⟨hx', hw, ?_⟩)
        have : (((s.runReset q.args).seek p).mem.window ((s.runReset q.args).seek p).pc prologBytes.length == prologBytes) = false :=
          beq_eq_false_iff_ne.mpr hw
        rw [this]

end Sys2Proof.Machine
end

