-- ==== Sys2Proof/Laws/Memory.lean ====
section
/-! SUPPORT. The image: a read after a placed byte, and the canonical form, which every operation that builds an image keeps. -/

namespace Sys2Proof.Machine

/-- The canonical form of a listing inside an extent, as a proposition. -/
theorem Memory.wf_iff (m : Memory) :
    m.wf = true ↔ m.cells.Pairwise (fun c d => c.1 < d.1) ∧ ∀ c ∈ m.cells, c.2 ≠ unlistedByte ∧ c.1 < m.extent := by
  simp [Memory.wf]

theorem Memory.wf_empty : Memory.empty.wf = true := by decide

/-- Every cell of a listing after a byte was set is an old one or the new one. -/
theorem mem_setCell {cs : List Host.Cell} {a : Nat} {b : Byte} {c : Host.Cell} (h : c ∈ setCell cs a b) :
    c ∈ cs ∨ (c = (a, b) ∧ b ≠ unlistedByte) := by
  induction cs with
  | nil =>
    simp only [setCell] at h
    split at h
    · cases h
    · simp_all
  | cons d cs ih =>
    simp only [setCell] at h
    split at h
    · split at h
      · exact .inl h
      · rcases List.mem_cons.mp h with rfl | h
        · exact .inr ⟨rfl, ‹_›⟩
        · exact .inl h
    · split at h
      · split at h
        · exact .inl (List.mem_cons_of_mem _ h)
        · rcases List.mem_cons.mp h with rfl | h
          · exact .inr ⟨rfl, ‹_›⟩
          · exact .inl (List.mem_cons_of_mem _ h)
      · rcases List.mem_cons.mp h with rfl | h
        · exact .inl List.mem_cons_self
        · rcases ih h with h | h
          · exact .inl (List.mem_cons_of_mem _ h)
          · exact .inr h

/-- Setting a byte keeps positions strictly rising. -/
theorem setCell_pairwise {cs : List Host.Cell} (h : cs.Pairwise fun c d => c.1 < d.1) (a : Nat) (b : Byte) :
    (setCell cs a b).Pairwise fun c d => c.1 < d.1 := by
  induction cs with
  | nil =>
    simp only [setCell]
    split
    · exact .nil
    · exact List.pairwise_singleton _ _
  | cons d cs ih =>
    have hd := List.pairwise_cons.mp h
    simp only [setCell]
    split
    · rename_i hlt
      split
      · exact h
      · refine List.pairwise_cons.mpr ⟨fun c hc => ?_, h⟩
        rcases List.mem_cons.mp hc with rfl | hc
        · exact hlt
        · exact Nat.lt_trans hlt (hd.1 c hc)
    · split
      · rename_i heq
        split
        · exact hd.2
        · exact List.pairwise_cons.mpr ⟨fun c hc => heq ▸ hd.1 c hc, hd.2⟩
      · rename_i hge hne
        refine List.pairwise_cons.mpr ⟨fun c hc => ?_, ih hd.2⟩
        rcases mem_setCell hc with hc | ⟨rfl, -⟩
        · exact hd.1 c hc
        · exact Nat.lt_of_le_of_ne (Nat.le_of_not_lt hge) fun e => hne e.symm

/-- Placing a byte keeps the canonical form. -/
theorem Memory.wf_put {m : Memory} (h : m.wf = true) (a : Nat) (b : Byte) : (m.put a b).wf = true := by
  rw [Memory.wf_iff] at h ⊢
  refine ⟨setCell_pairwise h.1 a b, fun c hc => ?_⟩
  rcases mem_setCell hc with hc | ⟨rfl, hb⟩
  · exact ⟨(h.2 c hc).1, lt_of_lt_of_le (h.2 c hc).2 (le_max_left _ _)⟩
  · exact ⟨hb, lt_of_lt_of_le (Nat.lt_succ_self _) (le_max_right _ _)⟩

/-- Placing a list of bytes keeps the canonical form. -/
theorem Memory.wf_load {m : Memory} (h : m.wf = true) (a : Nat) (bs : List Byte) : (m.load a bs).wf = true := by
  induction bs generalizing m a with
  | nil => exact h
  | cons b bs ih => exact ih (Memory.wf_put h a b) (a + 1)

/-- A position below every listed one is not listed. -/
theorem lookupCell_below {cs : List Host.Cell} {a : Nat} (h : ∀ c ∈ cs, a < c.1) : lookupCell cs a = unlistedByte := by
  induction cs with
  | nil => rfl
  | cons d cs ih =>
    have := h d List.mem_cons_self
    rw [lookupCell, if_neg (by omega)]
    exact ih fun c hc => h c (List.mem_cons_of_mem _ hc)

/-- Reading a listing after a byte was set: that byte at its position, the old byte elsewhere. -/
theorem lookupCell_setCell {cs : List Host.Cell} (h : cs.Pairwise fun c d => c.1 < d.1) (a q : Nat) (b : Byte) :
    lookupCell (setCell cs a b) q = if q = a then b else lookupCell cs q := by
  induction cs with
  | nil =>
    simp only [setCell]
    split <;> simp_all [lookupCell, eq_comm]
  | cons d cs ih =>
    have hd := List.pairwise_cons.mp h
    simp only [setCell]
    split
    · rename_i hlt
      have hbelow : ∀ c ∈ d :: cs, a < c.1 := fun c hc => by
        rcases List.mem_cons.mp hc with rfl | hc
        · exact hlt
        · exact Nat.lt_trans hlt (hd.1 c hc)
      split
      · rename_i hb
        by_cases hq : q = a
        · rw [if_pos hq, hq, hb, lookupCell_below hbelow]
        · rw [if_neg hq]
      · by_cases hq : q = a
        · simp [lookupCell, hq]
        · rw [if_neg hq, lookupCell, if_neg (fun e => hq e.symm)]
    · split
      · rename_i heq
        have hbelow : ∀ c ∈ cs, a < c.1 := fun c hc => heq ▸ hd.1 c hc
        split
        · rename_i hb
          by_cases hq : q = a
          · rw [if_pos hq, hq, hb, lookupCell_below hbelow]
          · rw [if_neg hq, lookupCell, if_neg (fun e => hq (heq ▸ e.symm))]
        · by_cases hq : q = a
          · simp [lookupCell, hq]
          · rw [if_neg hq, lookupCell, if_neg (fun e => hq e.symm), lookupCell,
              if_neg (fun e => hq (heq ▸ e.symm))]
      · rename_i hne
        rw [lookupCell, ih hd.2, lookupCell]
        by_cases hq : d.1 = q
        · rw [if_pos hq, if_pos hq, if_neg (fun e => hne (by rw [hq, e]))]
        · rw [if_neg hq, if_neg hq]

/-- Reading an image after a byte was placed. -/
theorem Memory.byteAt_put {m : Memory} (h : m.wf = true) (a q : Nat) (b : Byte) (hq : q < max m.extent (a + 1)) :
    (m.put a b).byteAt q = some (if q = a then b else lookupCell m.cells q) := by
  have hx : q < (m.put a b).extent := hq
  rw [Memory.byteAt, if_pos hx]
  exact congrArg some (lookupCell_setCell ((Memory.wf_iff m).mp h).1 a q b)

/-! ### The window -/

theorem Memory.byteAt_eq_some_iff {m : Memory} {a : Nat} {b : Byte} :
    m.byteAt a = some b ↔ a < m.extent ∧ lookupCell m.cells a = b := by
  unfold Memory.byteAt
  split <;> simp_all

theorem Memory.window_succ_of_lt {m : Memory} {a : Nat} (h : a < m.extent) (n : Nat) :
    m.window a (n + 1) = lookupCell m.cells a :: m.window (a + 1) n := by
  rw [Memory.window, Memory.byteAt, if_pos h]

theorem Memory.window_of_ge {m : Memory} {a : Nat} (h : m.extent ≤ a) (n : Nat) : m.window a n = [] := by
  cases n with
  | zero => rfl
  | succ n => rw [Memory.window, Memory.byteAt, if_neg (Nat.not_lt.mpr h)]

/-- A window reaches as far as the image. -/
theorem Memory.window_length (m : Memory) (a n : Nat) : (m.window a n).length = min n (m.extent - a) := by
  induction n generalizing a with
  | zero => simp [Memory.window]
  | succ n ih =>
    by_cases h : a < m.extent
    · rw [Memory.window_succ_of_lt h, List.length_cons, ih]
      omega
    · rw [Memory.window_of_ge (Nat.le_of_not_lt h)]
      simp only [List.length_nil]
      omega

/-- A shorter window is the front of a longer one. -/
theorem Memory.window_take (m : Memory) (a : Nat) {k n : Nat} (h : k ≤ n) : (m.window a n).take k = m.window a k := by
  induction n generalizing a k with
  | zero =>
    obtain rfl : k = 0 := by omega
    rfl
  | succ n ih =>
    cases k with
    | zero => simp [Memory.window]
    | succ k =>
      by_cases hlt : a < m.extent
      · rw [Memory.window_succ_of_lt hlt, Memory.window_succ_of_lt hlt, List.take_succ_cons, ih (a + 1) (by omega)]
      · rw [Memory.window_of_ge (Nat.le_of_not_lt hlt), Memory.window_of_ge (Nat.le_of_not_lt hlt), List.take_nil]

/-- The bytes of a window are the image's. -/
theorem Memory.window_getElem? (m : Memory) (a : Nat) {k n : Nat} (h : k < n) : (m.window a n)[k]? = m.byteAt (a + k) := by
  induction n generalizing a k with
  | zero => omega
  | succ n ih =>
    by_cases hlt : a < m.extent
    · rw [Memory.window_succ_of_lt hlt]
      cases k with
      | zero => simp [Memory.byteAt, hlt]
      | succ k =>
        rw [List.getElem?_cons_succ, ih (a + 1) (by omega)]
        congr 1
        omega
    · rw [Memory.window_of_ge (Nat.le_of_not_lt hlt), Memory.byteAt, if_neg (by omega)]
      simp

end Sys2Proof.Machine
end

