-- ==== Sys2Proof/Laws/PerInstr.lean ====
section
/-! SUPPORT. Per-instruction laws. EncodingLength: the encoding of an instruction has as many bytes as the decoder reads for it
(spec/30_encoding.md R50). -/

namespace Sys2Proof.Laws.EncodingLength

/-- The encoding has `size` bytes. -/
def Statement (i : Instr) : Prop := (encode i).length = i.size

theorem prolog : Statement .prolog := rfl

theorem epilog : Statement .epilog := rfl

theorem addRegReg (d : Reg) (r : Reg) : Statement (.addRegReg d r) := rfl

theorem subRegReg (d : Reg) (r : Reg) : Statement (.subRegReg d r) := rfl

theorem xorRegReg (d : Reg) (r : Reg) : Statement (.xorRegReg d r) := rfl

theorem movRegReg (d : Reg) (r : Reg) : Statement (.movRegReg d r) := rfl

theorem addRegImm (d : Reg) (v : Word) : Statement (.addRegImm d v) := rfl

theorem subRegImm (d : Reg) (v : Word) : Statement (.subRegImm d v) := rfl

theorem xorRegImm (d : Reg) (v : Word) : Statement (.xorRegImm d v) := rfl

theorem notReg (d : Reg) : Statement (.notReg d) := rfl

theorem negReg (d : Reg) : Statement (.negReg d) := rfl

theorem popReg (d : Reg) : Statement (.popReg d) := rfl

theorem movRegImm (d : Reg) (v : Word) : Statement (.movRegImm d v) := rfl

theorem memLow01 (x : BitVec 7) : Statement (.memLow01 x) := rfl

theorem memTwo01 (y : BitVec 6) : Statement (.memTwo01 y) := rfl

theorem memLow29 (x : BitVec 7) : Statement (.memLow29 x) := rfl

theorem memTwo29 (y : BitVec 6) : Statement (.memTwo29 y) := rfl

theorem memLow31 (x : BitVec 7) : Statement (.memLow31 x) := rfl

theorem memTwo31 (y : BitVec 6) : Statement (.memTwo31 y) := rfl

theorem memLow81 (x : BitVec 7) : Statement (.memLow81 x) := rfl

theorem memTwo81 (y : BitVec 6) : Statement (.memTwo81 y) := rfl

theorem memLow89 (x : BitVec 7) : Statement (.memLow89 x) := rfl

theorem memTwo89 (y : BitVec 6) : Statement (.memTwo89 y) := rfl

theorem memLowF7 (x : BitVec 7) : Statement (.memLowF7 x) := rfl

theorem memTwoF7 (y : BitVec 6) : Statement (.memTwoF7 y) := rfl

theorem badSub81 (sub : BitVec 3) (rm : BitVec 3) : Statement (.badSub81 sub rm) := rfl

theorem badSubF7 (sub : BitVec 3) (rm : BitVec 3) : Statement (.badSubF7 sub rm) := rfl

theorem otherByte (op : Byte) : Statement (.otherByte op) := rfl

end Sys2Proof.Laws.EncodingLength
end

