-- ==== Sys2Proof/Laws/Step.lean ====
section
/-! SUPPORT. What `step` is in each status, and everything it can do. -/

namespace Sys2Proof.Machine

/-- A run in progress makes one iteration (40 R94). -/
theorem step_of_running {s : State} (h : s.status = .running) (hq : s.request = none) : step s = runStep s := by
  simp [step, stepMachine, h, hq]

/-- Outside a run the host's request is accepted (40 R94). -/
theorem step_of_request {s : State} {q : Request} (h : s.status ≠ .running) (hq : s.request = some q) :
    step s = startRun q s := by
  cases hs : s.status <;> simp_all [step, stepMachine]

/-- Everything a step that answers a next state has done: one iteration of a run in progress, or the start of a run. -/
theorem step_next_cases {s t : State} (h : step s = .next t) :
    (s.status = .running ∧ s.request = none ∧ runStep s = .next t) ∨
      (∃ q, s.status ≠ .running ∧ s.request = some q ∧ startRun q s = .next t) := by
  cases hs : s.status <;> cases hq : s.request <;> simp_all [step, stepMachine]

end Sys2Proof.Machine
end

