-- ==== Sys2Proof/Tests/Slice0.lean ====
section
/-! SUPPORT. The model's own tests: well-formedness, decoding of words written out from the encoding rules, one step of each
instruction, the host's entry points, and for every statement with hypotheses a state and operands that meet them. Expected
results are those of spec/95_test_vectors.md (S, D, E, Q rows) or of the rule named. -/

namespace Sys2Proof.Tests

open Sys2Proof Sys2Proof.Machine

/-- The state after an answer, if it is a next state. -/
def nextOf (o : Result) : Option State :=
  match o with
  | .next t => some t
  | .fault _ => none
  | .refused _ => none

/-- The decoded instruction, if any. -/
def instrOf (d : Except DecodeStop Instr) : Option Instr :=
  match d with
  | .ok i => some i
  | .error _ => none

/-- A run in progress whose body stands at position 20, where the vectors of spec/95 put it. -/
def body (x : Regs) (args : List Word) (bs : List Byte) : State :=
  { State.reset with regs := x, pc := 20, args := args, status := .running, mem := Memory.empty.load 20 bs }

/-- The register and the cursor after one step. -/
def regPc (r : Reg) (s : State) : Option (Word × Nat) := (nextOf (step s)).map fun t => (t.reg r, t.pc)

/-- The outcome after one step. -/
def outcomeOf (s : State) : Option RunOutcome := (nextOf (step s)).bind State.outcome

/-- An instance that waits, over an image, with an `emulate` of RVA 5 pending. -/
def waiting (bs : List Byte) (p : Nat) (args : List Word) : State :=
  { State.reset with mem := Memory.empty.load 0 bs, resolve := [(5, p)], request := some { startRva := 5, args := args } }

/-! ### Well-formedness: a term refused by each check -/

theorem test_wf_sub81_0 : (Instr.badSub81 0 3).wf = false := by decide
theorem test_wf_sub81_5 : (Instr.badSub81 5 0).wf = false := by decide
theorem test_wf_sub81_6 : (Instr.badSub81 6 7).wf = false := by decide
theorem test_wf_sub81_7 : (Instr.badSub81 7 7).wf = true := by decide
theorem test_wf_subF7_2 : (Instr.badSubF7 2 1).wf = false := by decide
theorem test_wf_subF7_3 : (Instr.badSubF7 3 1).wf = false := by decide
theorem test_wf_subF7_4 : (Instr.badSubF7 4 1).wf = true := by decide
theorem test_wf_first_bytes : ([0x01, 0x29, 0x31, 0x58, 0x5F, 0x81, 0x89, 0xB8, 0xBF, 0xF7] : List Byte).all
    (fun b => !(Instr.otherByte b).wf) = true := by decide
theorem test_wf_other_bytes : ([0x00, 0x57, 0x60, 0x83, 0x90, 0xB7, 0xC0, 0xC3, 0xFF] : List Byte).all
    (fun b => (Instr.otherByte b).wf) = true := by decide

/-! ### Decoding: one word per constructor, written out bit by bit from spec/30 R51 to R65 and the opcode table -/

/-- D-1 `01 C8` -/
theorem test_decode_addRegReg : instrOf (decode [0b00000001, 0b11001000]) = some (.addRegReg .eax .ecx) := by decide
/-- D-1 `29 D3` -/
theorem test_decode_subRegReg : instrOf (decode [0b00101001, 0b11010011]) = some (.subRegReg .ebx .edx) := by decide
/-- D-1 `31 E5` -/
theorem test_decode_xorRegReg : instrOf (decode [0b00110001, 0b11100101]) = some (.xorRegReg .ebp .esp) := by decide
/-- E-3 `89 EC` -/
theorem test_decode_movRegReg : instrOf (decode [0b10001001, 0b11101100]) = some (.movRegReg .esp .ebp) := by decide
/-- D-1 -/
theorem test_decode_addRegImm : instrOf (decode [0b10000001, 0b11000011, 0b11110000, 0b11111111, 0b11111111, 0b11111111]) = some (.addRegImm .ebx 0xFFFFFFF0) := by decide
/-- E-2 `81 EF` -/
theorem test_decode_subRegImm : instrOf (decode [0b10000001, 0b11101111, 0b00000001, 0, 0, 0]) = some (.subRegImm .edi 1) := by decide
/-- E-2 `81 F6` -/
theorem test_decode_xorRegImm : instrOf (decode [0b10000001, 0b11110110, 0b01111000, 0b01010110, 0b00110100, 0b00010010]) = some (.xorRegImm .esi 0x12345678) := by decide
/-- E-4 `F7 D7` -/
theorem test_decode_notReg : instrOf (decode [0b11110111, 0b11010111]) = some (.notReg .edi) := by decide
/-- E-4 `F7 D9` -/
theorem test_decode_negReg : instrOf (decode [0b11110111, 0b11011001]) = some (.negReg .ecx) := by decide
/-- D-1 `5F` -/
theorem test_decode_popReg : instrOf (decode [0b01011111]) = some (.popReg .edi) := by decide
/-- E-3 -/
theorem test_decode_movRegImm : instrOf (decode [0b10111010, 0b11101111, 0b10111110, 0b10101101, 0b11011110]) = some (.movRegImm .edx 0xDEADBEEF) := by decide
/-- D-4 `01 08` -/
theorem test_decode_memLow01 : instrOf (decode [0b00000001, 0b00001000]) = some (.memLow01 0b0001000) := by decide
/-- R57 -/
theorem test_decode_memTwo01 : instrOf (decode [0b00000001, 0b10111111]) = some (.memTwo01 0b111111) := by decide
/-- D-4 `29 45 FC` -/
theorem test_decode_memLow29 : instrOf (decode [0b00101001, 0b01000101, 0b11111100]) = some (.memLow29 0b1000101) := by decide
/-- R57 -/
theorem test_decode_memTwo29 : instrOf (decode [0b00101001, 0b10000001]) = some (.memTwo29 0b000001) := by decide
/-- R57 -/
theorem test_decode_memLow31 : instrOf (decode [0b00110001, 0b01111111]) = some (.memLow31 0b1111111) := by decide
/-- D-4 `31 80` -/
theorem test_decode_memTwo31 : instrOf (decode [0b00110001, 0b10000000, 0, 0, 0, 0]) = some (.memTwo31 0) := by decide
/-- D-4 `81 08` -/
theorem test_decode_memLow81 : instrOf (decode [0b10000001, 0b00001000, 1, 0, 0, 0]) = some (.memLow81 0b0001000) := by decide
/-- R57 -/
theorem test_decode_memTwo81 : instrOf (decode [0b10000001, 0b10101000]) = some (.memTwo81 0b101000) := by decide
/-- D-4 `89 04 24` -/
theorem test_decode_memLow89 : instrOf (decode [0b10001001, 0b00000100, 0b00100100]) = some (.memLow89 0b0000100) := by decide
/-- R57 -/
theorem test_decode_memTwo89 : instrOf (decode [0b10001001, 0b10010000]) = some (.memTwo89 0b010000) := by decide
/-- D-4 `F7 10` -/
theorem test_decode_memLowF7 : instrOf (decode [0b11110111, 0b00010000]) = some (.memLowF7 0b0010000) := by decide
/-- D-4 `F7 98` -/
theorem test_decode_memTwoF7 : instrOf (decode [0b11110111, 0b10011000]) = some (.memTwoF7 0b011000) := by decide
/-- D-4 `81 C8` -/
theorem test_decode_badSub81 : instrOf (decode [0b10000001, 0b11001000]) = some (.badSub81 1 0) := by decide
/-- D-4 `F7 F8` -/
theorem test_decode_badSubF7 : instrOf (decode [0b11110111, 0b11111000]) = some (.badSubF7 7 0) := by decide
/-- D-4 `90` -/
theorem test_decode_otherByte : instrOf (decode [0b10010000]) = some (.otherByte 0x90) := by decide
/-- 00 R5, 40 R85 -/
theorem test_decode_epilog : instrOf (decodeBoundary [0b01011110, 0b01011111, 0b01011011, 0b11000011]) = some .epilog := by decide
/-- E-5: the four bytes `5E 5E 5F 5B` are no epilog. -/
theorem test_decode_pop_before_epilog : instrOf (decodeBoundary [0x5E, 0x5E, 0x5F, 0x5B]) = some (.popReg .esi) := by decide
/-- 00 R4, the table's first row -/
theorem test_decode_prolog : decodeTableWord 160 0x89E053575629E083F81874078B44241050EB0151 = some .prolog := by decide
/-- The table's row SubRegReg, `s` in bits 5:3 and `d` in bits 2:0. -/
theorem test_table_subRegReg : decodeTableWord 16 0x29D3 = some (.subRegReg .ebx .edx) := by decide
/-- The table's row EPILOG, value 0x5E5F5BC3 in bits 31:0. -/
theorem test_table_epilog : decodeTableWord 32 0x5E5F5BC3 = some .epilog := by decide
/-- A row that the table gives two of its six bytes: the immediate is zero. -/
theorem test_table_xorRegImm : decodeTableWord 16 0x81F6 = some (.xorRegImm .esi 0) := by decide
/-- Encoding of D-1's `81 C3 F0 FF FF FF`. -/
theorem test_encode_addRegImm : encode (.addRegImm .ebx 0xFFFFFFF0) = [0x81, 0xC3, 0xF0, 0xFF, 0xFF, 0xFF] := by decide
/-- The texts of D-1 and R71. -/
theorem test_text_add : instrText (.addRegReg .eax .ecx) = some ['a', 'd', 'd', ' ', 'e', 'a', 'x', ',', ' ', 'e', 'c', 'x'] := by
  decide
theorem test_text_imm : immText 0xF0 = ['0', 'x', 'F', '0'] := by decide
theorem test_text_zero : immText 0 = ['0', 'x', '0'] := by decide

/-! ### One step of each instruction -/

/-- E-1 -/
theorem test_step_addRegReg_wraps :
    regPc .eax (body { Regs.zero with eax := 0xFFFFFFFF, ecx := 1 } [] [0x01, 0xC8, 0, 0]) = some (0, 22) := by decide
/-- E-1 -/
theorem test_step_addRegReg_same :
    regPc .ecx (body { Regs.zero with ecx := 0x12345678 } [] [0x01, 0xC9, 0, 0]) = some (0x2468ACF0, 22) := by decide
/-- E-1 -/
theorem test_step_subRegReg_borrow :
    regPc .ebx (body { Regs.zero with ebx := 5, edx := 7 } [] [0x29, 0xD3, 0, 0]) = some (0xFFFFFFFE, 22) := by decide
/-- E-1 -/
theorem test_step_xorRegReg :
    regPc .ebp (body { Regs.zero with esp := 0x0F0F0F0F, ebp := 0x00FF00FF } [] [0x31, 0xE5, 0, 0]) = some (0x0FF00FF0, 22) := by decide
/-- E-3 -/
theorem test_step_movRegReg :
    regPc .eax (body { Regs.zero with ecx := 0x33661769 } [] [0x89, 0xC8, 0, 0]) = some (0x33661769, 22) := by decide
/-- E-3 `89 C1` -/
theorem test_step_movRegReg_esp :
    regPc .ecx (body Regs.zero [] [0x89, 0xC1, 0, 0]) = some (0, 22) := by decide
/-- E-2 -/
theorem test_step_addRegImm :
    regPc .eax (body { Regs.zero with eax := 0x12345678 } [] [0x81, 0xC0, 0xF0, 0xDE, 0xBC, 0x9A]) = some (0xACF13568, 26) := by decide
/-- E-2, third row -/
theorem test_step_addRegImm_high :
    regPc .eax (body Regs.zero [] [0x81, 0xC0, 0xFF, 0xFF, 0xFF, 0xFF]) = some (0xFFFFFFFF, 26) := by decide
/-- E-2 -/
theorem test_step_subRegImm :
    regPc .edi (body Regs.zero [] [0x81, 0xEF, 0x01, 0, 0, 0]) = some (0xFFFFFFFF, 26) := by decide
/-- E-2 -/
theorem test_step_xorRegImm :
    regPc .eax (body { Regs.zero with eax := 0x12345678 } [] [0x81, 0xF0, 0xF0, 0xDE, 0xBC, 0x9A]) = some (0x88888888, 26) := by decide
/-- E-3 -/
theorem test_step_movRegImm :
    regPc .edx (body Regs.zero [] [0xBA, 0xEF, 0xBE, 0xAD, 0xDE]) = some (0xDEADBEEF, 25) := by decide
/-- P5 -/
theorem test_step_movRegImm_epilog :
    regPc .eax (body Regs.zero [] [0xB8, 0x5E, 0x5F, 0x5B, 0xC3]) = some (0xC35B5F5E, 25) := by decide
/-- E-4 -/
theorem test_step_negReg :
    regPc .eax (body { Regs.zero with eax := 0x80000000 } [] [0xF7, 0xD8, 0, 0]) = some (0x80000000, 22) := by decide
/-- E-4 -/
theorem test_step_negReg_one :
    regPc .ecx (body { Regs.zero with ecx := 1 } [] [0xF7, 0xD9, 0, 0]) = some (0xFFFFFFFF, 22) := by decide
/-- E-4 -/
theorem test_step_notReg :
    regPc .eax (body { Regs.zero with eax := 0x7FFFFFFF } [] [0xF7, 0xD0, 0, 0]) = some (0x80000000, 22) := by decide
/-- E-5 -/
theorem test_step_popReg_esp :
    regPc .esp (body Regs.zero [0x80000000] [0x5C, 0x5E, 0x5F, 0x5B]) = some (0x80000000, 21) := by decide
/-- E-5 -/
theorem test_fault_popReg_exhausted :
    outcomeOf (body Regs.zero [] [0x58, 0x5E, 0x5F, 0x5B]) = some (.faulted (.argumentSupplyExhausted 20 0)) := by decide
/-- D-4 -/
theorem test_fault_memLow01 :
    outcomeOf (body Regs.zero [] [0x01, 0x08, 0, 0]) = some (.faulted (.memoryOperand 20 0x01 0x08)) := by decide
/-- 60 R133 -/
theorem test_fault_memTwo01 :
    outcomeOf (body Regs.zero [] [0x01, 0xBF, 0, 0]) = some (.faulted (.memoryOperand 20 0x01 0xBF)) := by decide
/-- D-4 -/
theorem test_fault_memLow29 :
    outcomeOf (body Regs.zero [] [0x29, 0x45, 0xFC, 0]) = some (.faulted (.memoryOperand 20 0x29 0x45)) := by decide
/-- 60 R133 -/
theorem test_fault_memTwo29 :
    outcomeOf (body Regs.zero [] [0x29, 0x80, 0, 0]) = some (.faulted (.memoryOperand 20 0x29 0x80)) := by decide
/-- 60 R133 -/
theorem test_fault_memLow31 :
    outcomeOf (body Regs.zero [] [0x31, 0x7F, 0, 0]) = some (.faulted (.memoryOperand 20 0x31 0x7F)) := by decide
/-- D-4 -/
theorem test_fault_memTwo31 :
    outcomeOf (body Regs.zero [] [0x31, 0x80, 0, 0]) = some (.faulted (.memoryOperand 20 0x31 0x80)) := by decide
/-- Q16 -/
theorem test_fault_memLow81 :
    outcomeOf (body Regs.zero [] [0x81, 0x08, 0x01, 0x02]) = some (.faulted (.memoryOperand 20 0x81 0x08)) := by decide
/-- 60 R133 -/
theorem test_fault_memTwo81 :
    outcomeOf (body Regs.zero [] [0x81, 0xA8, 0, 0]) = some (.faulted (.memoryOperand 20 0x81 0xA8)) := by decide
/-- D-4 -/
theorem test_fault_memLow89 :
    outcomeOf (body Regs.zero [] [0x89, 0x04, 0x24, 0]) = some (.faulted (.memoryOperand 20 0x89 0x04)) := by decide
/-- 60 R133 -/
theorem test_fault_memTwo89 :
    outcomeOf (body Regs.zero [] [0x89, 0x90, 0, 0]) = some (.faulted (.memoryOperand 20 0x89 0x90)) := by decide
/-- D-4 -/
theorem test_fault_memLowF7 :
    outcomeOf (body Regs.zero [] [0xF7, 0x10, 0, 0]) = some (.faulted (.memoryOperand 20 0xF7 0x10)) := by decide
/-- D-4 -/
theorem test_fault_memTwoF7 :
    outcomeOf (body Regs.zero [] [0xF7, 0x98, 0, 0]) = some (.faulted (.memoryOperand 20 0xF7 0x98)) := by decide
/-- Q15 -/
theorem test_fault_badSub81 :
    outcomeOf (body Regs.zero [] [0x81, 0xC8, 0x01, 0x02]) = some (.faulted (.unsupportedOpcode 20 0x81 (some 1))) := by decide
/-- D-4 -/
theorem test_fault_badSubF7 :
    outcomeOf (body Regs.zero [] [0xF7, 0xE0, 0, 0]) = some (.faulted (.unsupportedOpcode 20 0xF7 (some 4))) := by decide
/-- D-4 -/
theorem test_fault_otherByte :
    outcomeOf (body Regs.zero [] [0x83, 0xC0, 0x03, 0]) = some (.faulted (.unsupportedOpcode 20 0x83 none)) := by decide
/-- Q8 -/
theorem test_fault_boundary_short :
    outcomeOf (body Regs.zero [] [0x5E, 0x5F, 0x5B]) = some (.faulted (.fetchOutOfBounds 20 4)) := by decide
/-- Q13 -/
theorem test_fault_mov_short :
    outcomeOf (body Regs.zero [] [0xB8, 0x01, 0x02, 0x03]) = some (.faulted (.fetchOutOfBounds 21 4)) := by decide
/-- Q14 -/
theorem test_fault_add_short :
    outcomeOf (body Regs.zero [] [0x81, 0xC0, 0x01, 0x02]) = some (.faulted (.fetchOutOfBounds 22 4)) := by decide
/-- The epilog ends the run with `x[0]`, whatever else stands in the registers (40 R86). -/
theorem test_step_epilog :
    outcomeOf (body { Regs.zero with eax := 8, edi := 3 } [] [0x5E, 0x5F, 0x5B, 0xC3]) = some (.done 8) := by decide

/-! ### Starting a run -/

/-- Q1: the prolog is skipped and the run is in progress. -/
theorem test_start_prolog :
    (nextOf (step (waiting (prologBytes ++ epilogBytes) 0 [7]))).map (fun t => (t.status, t.pc, t.args)) = some (.running, 20, [7]) := by
  decide
/-- Q5: the first byte differs. -/
theorem test_start_mismatch :
    outcomeOf (waiting (0x8B :: prologBytes.tail ++ epilogBytes) 0 []) = some (.faulted (.missingProlog 5 0)) := by decide
/-- Q6: 19 bytes only. -/
theorem test_start_short : outcomeOf (waiting (prologBytes.take 19) 0 []) = some (.faulted (.fetchOutOfBounds 0 20)) := by decide
/-- Q11 -/
theorem test_start_unresolved :
    outcomeOf { waiting prologBytes 0 [] with resolve := [(4, 0)] } = some (.faulted (.addressResolveFault 5)) := by decide
/-- S-C: the lookahead's answers at position 0. -/
theorem test_peek :
    (match peek prologBytes (waiting prologBytes 0 []), peek epilogBytes (waiting prologBytes 0 []) with
      | .ok a, .ok b => some (a, b)
      | _, _ => none) = some (true, false) := by decide

/-! ### The host's entry points -/

theorem test_placed_instruction :
    (nextOf (step (State.reset.withFetchWord 16 0xF7D0))).map (fun t => (t.reg .eax, t.pc)) = some (0xFFFFFFFF, 2) := by decide
theorem test_placed_prolog :
    (nextOf (step (State.reset.withFetchWord 160 0x89E053575629E083F81874078B44241050EB0151))).map (fun t => (t.status, t.pc)) =
      some (.running, 20) := by decide
theorem test_placed_epilog : outcomeOf (State.reset.withFetchWord 32 0x5E5F5BC3) = some (.done 0) := by decide
/-- The image a program is placed in is canonical. -/
theorem test_placed_image (bs : List Byte) (a : Nat) : (Memory.empty.load a bs).wf = true := Memory.wf_load Memory.wf_empty a bs


/-! ### Witnesses: for every statement with hypotheses, a state and operands that meet them, one per clause -/

theorem witness_ModRMFieldsCompose :
    (0xC8 : Byte).toNat = 64 * (3 : BitVec 2).toNat + 8 * (1 : BitVec 3).toNat + (0 : BitVec 3).toNat := by decide

theorem witness_DecodeOfEncode :
    (Instr.badSub81 7 7).wf = true ∧ Instr.badSub81 7 7 ≠ .prolog ∧ Instr.badSub81 7 7 ≠ .epilog := by decide

theorem witness_EncodeOfDecode : decode [0x81, 0xFF] = .ok (.badSub81 7 7) := rfl

theorem witness_BoundaryDecoding_short : ([0x5E, 0x5F, 0x5B] : List Byte).length < 4 := by decide

theorem witness_BoundaryDecoding_decode :
    (Instr.popReg .esi).wf = true ∧ Instr.popReg .esi ≠ .prolog ∧ Instr.popReg .esi ≠ .epilog ∧
      4 ≤ (encode (.popReg .esi) ++ [0x5E, 0x5F, 0x5B]).length ∧
      (encode (.popReg .esi) ++ [0x5E, 0x5F, 0x5B]).take 4 ≠ epilogBytes := by decide

theorem witness_LengthFromFirstByte :
    decode [0x5F] = .ok (.popReg .edi) ∧ instrKind (.popReg .edi) ≠ none ∧
      decode [0xB8, 1, 0, 0, 0] = .ok (.movRegImm .eax 1) ∧ instrKind (.movRegImm .eax 1) ≠ none ∧
      decode [0x81, 0xC0, 1, 0, 0, 0] = .ok (.addRegImm .eax 1) ∧ instrKind (.addRegImm .eax 1) ≠ none ∧
      decode [0xF7, 0xD0] = .ok (.notReg .eax) ∧ instrKind (.notReg .eax) ≠ none :=
  ⟨rfl, by decide, rfl, by decide, rfl, by decide, rfl, by decide⟩

/-- The first bytes beside the two ranges are outside the set; the ranges' last bytes are inside. -/
theorem witness_UnsupportedFirstByte :
    ([0x57, 0x60, 0xB7, 0xC0] : List Byte).all (fun op => decide (¬ (op = 0x01#8 ∨ op = 0x29#8 ∨ op = 0x31#8 ∨
      (0x58#8 ≤ op ∧ op ≤ 0x5F#8) ∨ op = 0x81#8 ∨ op = 0x89#8 ∨ (0xB8#8 ≤ op ∧ op ≤ 0xBF#8) ∨ op = 0xF7#8))) = true ∧
    ((0x58#8 ≤ 0x5F#8 ∧ 0x5F#8 ≤ 0x5F#8) ∧ decode [0x5F] = .ok (.popReg .edi)) :=
  ⟨by decide, by decide, rfl⟩

theorem witness_MemoryOperandRejected :
    (0xF7 : Byte) = 0xF7#8 ∧ (0x00 : Byte).toNat < 0xC0 ∧ (0xBF : Byte).toNat < 0xC0 := by decide

theorem witness_SubOpsOf81 : (7#3 ≠ 0#3 ∧ 7#3 ≠ 5#3 ∧ 7#3 ≠ 6#3) ∧ (4#3 ≠ 0#3 ∧ 4#3 ≠ 5#3 ∧ 4#3 ≠ 6#3) := by decide

theorem witness_SubOpsOfF7 : (1#3 ≠ 2#3 ∧ 1#3 ≠ 3#3) ∧ (4#3 ≠ 2#3 ∧ 4#3 ≠ 3#3) := by decide

theorem witness_TextIsInjective :
    instrKind (.movRegImm .edx 0) ≠ none ∧ instrText (.movRegImm .edx 0) = instrText (.movRegImm .edx 0) := ⟨by decide, rfl⟩

/-- Four bytes: an access that ends at the end of the image, and one that passes it by one byte. -/
theorem witness_MemReadBoundsAndValue :
    0 + 4 ≤ (Memory.empty.load 0 [1, 2, 3, 4]).extent ∧ 1 + 4 > (Memory.empty.load 0 [1, 2, 3, 4]).extent := by decide

theorem witness_FetchReadsAndAdvances :
    (body Regs.zero [] [1, 2, 3, 4]).mem.byteAt 20 = some 1 ∧ (body Regs.zero [] [1, 2, 3, 4]).mem.byteAt (20 + 1) = some 2 ∧
      (body Regs.zero [] [1, 2, 3, 4]).mem.byteAt (20 + 2) = some 3 ∧ (body Regs.zero [] [1, 2, 3, 4]).mem.byteAt (20 + 3) = some 4 ∧
      20 + 1 > (body Regs.zero [] []).mem.extent ∧ 20 + 4 > (body Regs.zero [] [1, 2, 3]).mem.extent := by decide

theorem witness_LookaheadCompares :
    20 + epilogBytes.length > (body Regs.zero [] [0x5E, 0x5F, 0x5B]).mem.extent ∧
      20 + epilogBytes.length ≤ (body Regs.zero [] epilogBytes).mem.extent := by decide

/-- The instruction rules: a ModRM byte below 0xC0, and, for each opcode with an immediate, five bytes of six or four of five. -/
theorem witness_instruction_rules :
    (0xBF : Byte).toNat < 0xC0 ∧
    (Running (body Regs.zero [] [0x81, 0xEF, 1, 2, 3]) ∧
      StandsAtPc (body Regs.zero [] [0x81, 0xEF, 1, 2, 3]) [0x81, directModRM 5 Reg.edi.bits.toNat] ∧
      20 + 4 ≤ (body Regs.zero [] [0x81, 0xEF, 1, 2, 3]).mem.extent ∧
      20 + 2 + 4 > (body Regs.zero [] [0x81, 0xEF, 1, 2, 3]).mem.extent) ∧
    (Running (body Regs.zero [] [0xBF, 1, 2, 3]) ∧
      StandsAtPc (body Regs.zero [] [0xBF, 1, 2, 3]) [BitVec.ofNat 8 (0xB8 + Reg.edi.bits.toNat)] ∧
      20 + 4 ≤ (body Regs.zero [] [0xBF, 1, 2, 3]).mem.extent ∧ 20 + 1 + 4 > (body Regs.zero [] [0xBF, 1, 2, 3]).mem.extent) :=
  ⟨by decide, ⟨⟨rfl, rfl⟩, rfl, by decide, by decide⟩, ⟨rfl, rfl⟩, rfl, by decide, by decide⟩

/-- PopReg: the last argument left, and none left. -/
theorem witness_PopRegRule :
    ((body Regs.zero [9] [0x58]).argidx < (body Regs.zero [9] [0x58]).args.length) ∧
      (body Regs.zero [] [0x58]).argidx ≥ (body Regs.zero [] [0x58]).args.length := by decide

theorem witness_ArithmeticCornerCases : Reg.edi ≠ Reg.esi := by decide

theorem witness_StepRunsDecodedInstruction :
    Running (body Regs.zero [] [0xF7, 0xD8, 0, 0]) ∧
      decodeBoundary ((body Regs.zero [] [0xF7, 0xD8, 0, 0]).mem.window 20 maxInstrBytes) = .ok (.negReg .eax) :=
  ⟨⟨rfl, rfl⟩, rfl⟩

theorem witness_ShortFetchTakesFault :
    Running (body Regs.zero [] [0xB8, 1, 2, 3]) ∧
      decodeBoundary ((body Regs.zero [] [0xB8, 1, 2, 3]).mem.window 20 maxInstrBytes) = .error (.short 1 4) :=
  ⟨⟨rfl, rfl⟩, rfl⟩

/-- Three bytes left, and none. -/
theorem witness_BoundaryBeyondImage :
    (Running (body Regs.zero [] [0x5E, 0x5F, 0x5B]) ∧ 20 + 4 > (body Regs.zero [] [0x5E, 0x5F, 0x5B]).mem.extent) ∧
      (Running (body Regs.zero [] []) ∧ 20 + 4 > (body Regs.zero [] []).mem.extent) :=
  ⟨⟨⟨rfl, rfl⟩, by decide⟩, ⟨rfl, rfl⟩, by decide⟩

/-- One state for each of the three fetches that can fail. -/
theorem witness_OnlyBoundaryOrImmediateFetchFails :
    (∃ t, Running (body Regs.zero [] [1, 2, 3]) ∧ step (body Regs.zero [] [1, 2, 3]) = .next t ∧ t.status = .faulted ∧
      t.fault = .fetchOutOfBounds 20 4) ∧
    (∃ t, Running (body Regs.zero [] [0xBF, 1, 2, 3]) ∧ step (body Regs.zero [] [0xBF, 1, 2, 3]) = .next t ∧
      t.status = .faulted ∧ t.fault = .fetchOutOfBounds 21 4) ∧
    (∃ t, Running (body Regs.zero [] [0x81, 0xEF, 1, 2, 3]) ∧ step (body Regs.zero [] [0x81, 0xEF, 1, 2, 3]) = .next t ∧
      t.status = .faulted ∧ t.fault = .fetchOutOfBounds 22 4) :=
  ⟨⟨_, ⟨rfl, rfl⟩, rfl, rfl, rfl⟩, ⟨_, ⟨rfl, rfl⟩, rfl, rfl, rfl⟩, ⟨_, ⟨rfl, rfl⟩, rfl, rfl, rfl⟩⟩

theorem witness_EpilogEndsRun :
    Running (body Regs.zero [] epilogBytes) ∧ StandsAtPc (body Regs.zero [] epilogBytes) epilogBytes := ⟨⟨rfl, rfl⟩, rfl⟩

theorem witness_EpilogBytesAsImmediate :
    Running (body Regs.zero [] [0xB8, 0x5E, 0x5F, 0x5B, 0xC3]) ∧
      StandsAtPc (body Regs.zero [] [0xB8, 0x5E, 0x5F, 0x5B, 0xC3]) [0xB8, 0x5E, 0x5F, 0x5B, 0xC3] := ⟨⟨rfl, rfl⟩, rfl⟩

theorem witness_StartUnresolved :
    (waiting [] 0 []).status ≠ .running ∧ { waiting [] 0 [] with resolve := [] }.request = some ⟨5, []⟩ ∧
      resolveRva { waiting [] 0 [] with resolve := [] }.resolve 5 = none := by decide

/-- 19 bytes. -/
theorem witness_StartBeyondImage :
    (waiting (prologBytes.take 19) 0 []).status ≠ .running ∧ (waiting (prologBytes.take 19) 0 []).request = some ⟨5, []⟩ ∧
      resolveRva (waiting (prologBytes.take 19) 0 []).resolve 5 = some 0 ∧
      0 + 20 > (waiting (prologBytes.take 19) 0 []).mem.extent := by decide

/-- Q4: the last of the 20 bytes differs. -/
theorem witness_StartWithoutProlog :
    (waiting (prologBytes.take 19 ++ [0x50]) 0 []).status ≠ .running ∧
      (waiting (prologBytes.take 19 ++ [0x50]) 0 []).request = some ⟨5, []⟩ ∧
      resolveRva (waiting (prologBytes.take 19 ++ [0x50]) 0 []).resolve 5 = some 0 ∧
      0 + 20 ≤ (waiting (prologBytes.take 19 ++ [0x50]) 0 []).mem.extent ∧
      ∃ k, k < 20 ∧ (waiting (prologBytes.take 19 ++ [0x50]) 0 []).mem.byteAt (0 + k) ≠ prologBytes[k]? :=
  ⟨by decide, by decide, by decide, by decide, 19, by decide, by decide⟩

/-- Exactly 20 bytes from position 3 on. -/
theorem witness_StartWithProlog :
    (waiting ([0xCC, 0xCC, 0xCC] ++ prologBytes) 3 []).status ≠ .running ∧
      (waiting ([0xCC, 0xCC, 0xCC] ++ prologBytes) 3 []).request = some ⟨5, []⟩ ∧
      resolveRva (waiting ([0xCC, 0xCC, 0xCC] ++ prologBytes) 3 []).resolve 5 = some 3 ∧
      (waiting ([0xCC, 0xCC, 0xCC] ++ prologBytes) 3 []).mem.window 3 20 = prologBytes := by decide

theorem witness_StatesWithoutTransition :
    (State.reset.status ≠ .running ∧ State.reset.request = none) ∧
      ({ body Regs.zero [] [] with request := some ⟨0, []⟩ }.status = .running ∧
        { body Regs.zero [] [] with request := some ⟨0, []⟩ }.request ≠ none) := by decide

/-- A running state that meets the invariant, and its step. -/
theorem witness_StepKeepsInvariant :
    Inv (body Regs.zero [7] [0x58, 0, 0, 0]) ∧ ∃ t, step (body Regs.zero [7] [0x58, 0, 0, 0]) = .next t :=
  ⟨⟨by decide, by decide, fun _ => by decide⟩, _, rfl⟩

theorem witness_StepKeepsPlatform : ∃ t, step (waiting prologBytes 0 []) = .next t := ⟨_, rfl⟩

theorem witness_Running : Running (body Regs.zero [] [0xF7, 0xD0, 0, 0]) := ⟨rfl, rfl⟩

theorem witness_CursorMovesByLength :
    ∃ t, Running (body Regs.zero [] [0xF7, 0xD0, 0, 0]) ∧ step (body Regs.zero [] [0xF7, 0xD0, 0, 0]) = .next t ∧
      t.status = .running := ⟨_, ⟨rfl, rfl⟩, rfl, rfl⟩

theorem witness_FaultingStepIsPrecise :
    ∃ t, Running (body Regs.zero [] [0x58, 0, 0, 0]) ∧ step (body Regs.zero [] [0x58, 0, 0, 0]) = .next t ∧
      t.status = .faulted := ⟨_, ⟨rfl, rfl⟩, rfl, rfl⟩

theorem witness_OnlyPopTakesArguments : ∃ t, exec (.popReg .edi) (body Regs.zero [7] []) = .next t := ⟨_, rfl⟩

theorem witness_OnlyDestinationWritten :
    ∃ t, exec (.movRegReg .edi .esi) (body Regs.zero [] []) = .next t ∧ destination (.movRegReg .edi .esi) ≠ some .esi :=
  ⟨_, rfl, by decide⟩

theorem witness_StatusWrittenByRunAndFault :
    ∃ t, exec (.popReg .edi) (body Regs.zero [] []) = .next t ∧ Instr.popReg .edi ≠ .epilog ∧ instrKind (.popReg .edi) ≠ none ∧
      t.fault ≠ (body Regs.zero [] []).fault := ⟨_, rfl, by decide, by decide, by decide⟩

theorem witness_EmulateAlwaysAnswers : (waiting prologBytes 0 []).status ≠ .running := by decide

/-- Two instances over one image with different pasts. -/
theorem witness_EmulateIgnoresThePast :
    (waiting prologBytes 0 []).status ≠ .running ∧ { waiting prologBytes 0 [] with status := .done, result := 9 }.status ≠ .running ∧
      (waiting prologBytes 0 []).mem = { waiting prologBytes 0 [] with status := .done, result := 9 }.mem ∧
      (waiting prologBytes 0 []).resolve = { waiting prologBytes 0 [] with status := .done, result := 9 }.resolve := by decide

end Sys2Proof.Tests
end

section
/-! The state's rules (spec/10_state.md): the invariant and its preservation, and what executing an instruction leaves unchanged.
First what `decode()` can answer, then every outcome of `exec`, then the statements. -/

namespace Sys2Proof

/-! ### What `decode()` answers -/

/-- An instruction read from the front of a byte list: it is well-formed and its encoding stands there (30 R69). -/
structure Instr.ReadFrom (i : Instr) (bs : List Byte) : Prop where
  wf : i.wf = true
  front : encode i <+: bs

theorem encode_length (i : Instr) : (encode i).length = i.size := by
  cases i <;> rfl

theorem Instr.ReadFrom.size_le {i : Instr} {bs : List Byte} (h : i.ReadFrom bs) : i.size ≤ bs.length :=
  encode_length i ▸ h.front.length_le

/-- A ModRM byte with mod 2 is its mod and its bits 5:0. -/
theorem append_of_modField_two {m : Byte} (h : modField m = 2#2) : 2#2 ++ m.extractLsb' 0 6 = m := by
  revert m
  decide

/-- A ModRM byte with mod 0 or 1 is a zero bit and its bits 6:0. -/
theorem append_of_modField_low {m : Byte} (h3 : modField m ≠ 3#2) (h2 : modField m ≠ 2#2) :
    0#1 ++ m.extractLsb' 0 7 = m := by
  revert m
  decide

/-- An opcode with a ModRM byte reads an instruction if its two MemoryOperand rows are those of the opcode and its
register-direct part reads one (30 R57, R59). -/
theorem decodeModRM_readFrom {op : Byte} {rest : List Byte} {i : Instr} {low : BitVec 7 → Instr} {two : BitVec 6 → Instr}
    {direct : BitVec 3 → BitVec 3 → List Byte → Except DecodeStop Instr} (h : decodeModRM rest low two direct = .ok i)
    (hlow : ∀ x, (low x).wf = true ∧ encode (low x) = [op, 0#1 ++ x])
    (htwo : ∀ x, (two x).wf = true ∧ encode (two x) = [op, 2#2 ++ x])
    (hdirect : ∀ reg rm tail, direct reg rm tail = .ok i → i.ReadFrom (op :: modRM 3#2 reg rm :: tail)) :
    i.ReadFrom (op :: rest) := by
  cases rest with
  | nil => cases h
  | cons m tail =>
    rw [decodeModRM_cons] at h
    split_ifs at h with h3 h2
    · have := hdirect _ _ _ h
      rwa [← h3, modRM_of_fields] at this
    · cases h
      obtain ⟨hwf, henc⟩ := htwo (m.extractLsb' 0 6)
      exact ⟨hwf, by simp [henc, append_of_modField_two h2]⟩
    · cases h
      obtain ⟨hwf, henc⟩ := hlow (m.extractLsb' 0 7)
      exact ⟨hwf, by simp [henc, append_of_modField_low h3 h2]⟩

/-- A register-register opcode reads the instruction of its two ModRM registers (30 R59). -/
theorem decodeModRM_regReg_readFrom {op : Byte} {rest : List Byte} {i : Instr} {low : BitVec 7 → Instr}
    {two : BitVec 6 → Instr} {k : Reg → Reg → Instr}
    (h : decodeModRM rest low two (fun reg rm _ => .ok (k (.ofBits rm) (.ofBits reg))) = .ok i)
    (hlow : ∀ x, (low x).wf = true ∧ encode (low x) = [op, 0#1 ++ x])
    (htwo : ∀ x, (two x).wf = true ∧ encode (two x) = [op, 2#2 ++ x])
    (hk : ∀ d r, (k d r).wf = true ∧ encode (k d r) = [op, modRM 3#2 r.bits d.bits]) : i.ReadFrom (op :: rest) := by
  refine decodeModRM_readFrom h hlow htwo fun reg rm tail h => ?_
  cases h
  obtain ⟨hwf, henc⟩ := hk (.ofBits rm) (.ofBits reg)
  exact ⟨hwf, by simp [henc]⟩

/-- The immediate part reads an instruction whose encoding is the bytes before it and the immediate's (30 R58). -/
theorem decodeImm_readFrom {off : Nat} {pre rest : List Byte} {k : Word → Instr} {i : Instr} (h : decodeImm off rest k = .ok i)
    (hk : ∀ v, (k v).wf = true ∧ encode (k v) = pre ++ imm32Bytes v) : i.ReadFrom (pre ++ rest) := by
  obtain ⟨-, he⟩ | ⟨b0, b1, b2, b3, tail, rfl, he⟩ := decodeImm_cases off rest k
  · cases he.symm.trans h
  · cases he.symm.trans h
    obtain ⟨hwf, henc⟩ := hk (imm32 b0 b1 b2 b3)
    exact ⟨hwf, by simp [henc, imm32Bytes_imm32]⟩

/-- Whatever `decode()` answers is well-formed and its encoding stands at the front of the bytes. The cases are those of the
decode table (30 R60). -/
theorem decode_readFrom {bs : List Byte} {i : Instr} (h : decode bs = .ok i) : i.ReadFrom bs := by
  cases bs with
  | nil => cases h
  | cons op rest =>
    simp only [decode] at h
    split_ifs at h with h01 h29 h31 hpop h81 h89 hmov hF7
    · subst h01
      exact decodeModRM_regReg_readFrom h (fun _ => ⟨rfl, rfl⟩) (fun _ => ⟨rfl, rfl⟩) fun _ _ => ⟨rfl, rfl⟩
    · subst h29
      exact decodeModRM_regReg_readFrom h (fun _ => ⟨rfl, rfl⟩) (fun _ => ⟨rfl, rfl⟩) fun _ _ => ⟨rfl, rfl⟩
    · subst h31
      exact decodeModRM_regReg_readFrom h (fun _ => ⟨rfl, rfl⟩) (fun _ => ⟨rfl, rfl⟩) fun _ _ => ⟨rfl, rfl⟩
    · cases h
      exact ⟨rfl, by simp [encode, ← hpop, opHigh_append]⟩
    · subst h81
      refine decodeModRM_readFrom h (fun _ => ⟨rfl, rfl⟩) (fun _ => ⟨rfl, rfl⟩) fun reg rm tail h => ?_
      split_ifs at h with hadd hsub hxor
      · subst hadd
        exact decodeImm_readFrom (pre := [_, _]) h fun _ => ⟨rfl, by simp [encode]⟩
      · subst hsub
        exact decodeImm_readFrom (pre := [_, _]) h fun _ => ⟨rfl, by simp [encode]⟩
      · subst hxor
        exact decodeImm_readFrom (pre := [_, _]) h fun _ => ⟨rfl, by simp [encode]⟩
      · cases h
        exact ⟨by simp [Instr.wf, supportedSub81, hadd, hsub, hxor], by simp [encode]⟩
    · subst h89
      exact decodeModRM_regReg_readFrom h (fun _ => ⟨rfl, rfl⟩) (fun _ => ⟨rfl, rfl⟩) fun _ _ => ⟨rfl, rfl⟩
    · exact decodeImm_readFrom (pre := [op]) h fun _ => ⟨rfl, by simp [encode, ← hmov, opHigh_append]⟩
    · subst hF7
      refine decodeModRM_readFrom h (fun _ => ⟨rfl, rfl⟩) (fun _ => ⟨rfl, rfl⟩) fun reg rm tail h => ?_
      split_ifs at h with hnot hneg
      · cases h
        exact ⟨rfl, by simp [encode, hnot]⟩
      · cases h
        exact ⟨rfl, by simp [encode, hneg]⟩
      · cases h
        exact ⟨by simp [Instr.wf, supportedSubF7, hnot, hneg], by simp [encode]⟩
    · cases h
      rw [opHigh_pop_iff, not_and_or, BitVec.not_le, BitVec.not_le] at hpop
      rw [opHigh_mov_iff, not_and_or, BitVec.not_le, BitVec.not_le] at hmov
      exact ⟨by simp_all [Instr.wf, supportedByte], by simp [encode]⟩

/-- `decode()` answers no prolog: its first two bytes are `mov eax, esp` (30 R60, 40 R84). -/
theorem decode_ne_prolog {bs : List Byte} {i : Instr} (h : decode bs = .ok i) : i ≠ .prolog := by
  rintro rfl
  obtain ⟨tail, rfl⟩ := (decode_readFrom h).front
  have hmov : decode (encode .prolog ++ tail) = .ok (.movRegReg .eax .esp) := rfl
  cases hmov.symm.trans h

/-- What stands at a boundary is no prolog and ends inside the bytes (40 R85). -/
theorem decodeBoundary_ok {bs : List Byte} {i : Instr} (h : decodeBoundary bs = .ok i) :
    i ≠ .prolog ∧ i.size ≤ bs.length := by
  obtain ⟨-, hd⟩ | ⟨hlen, -, hd⟩ | ⟨-, -, hd⟩ := decodeBoundary_cases bs <;> rw [hd] at h
  · cases h
  · cases h
    exact ⟨nofun, hlen⟩
  · exact ⟨decode_ne_prolog h, (decode_readFrom h).size_le⟩

/-- A decoded instruction of the eleven kinds has 1, 2, 5 or 6 bytes (30 R50). -/
theorem Instr.size_of_kind {i : Instr} (h : Machine.instrKind i ≠ none) : i.size = 1 ∨ i.size = 2 ∨ i.size = 5 ∨ i.size = 6 := by
  cases i <;> simp_all [Machine.instrKind, Instr.size]

end Sys2Proof

namespace Sys2Proof.Machine

/-! ### What an instruction has done -/

/-- Every next state of an instruction: one register written, an argument popped, a fault taken, a run begun or finished. -/
theorem exec_next_cases {i : Instr} {s t : State} (h : exec i s = .next t) :
    (∃ d v, operand1 i = some (.reg d) ∧ instrKind i ≠ none ∧ t = (s.advance i.size).setReg d v) ∨
      (∃ d v, i = .popReg d ∧ s.args[s.argidx]? = some v ∧ t = (s.takeArg.advance 1).setReg d v) ∨
      (∃ f, i ≠ .prolog ∧ i ≠ .epilog ∧ t = (s.advance i.size).raise f) ∨
      (i = .prolog ∧ t = (s.advance 20).begin) ∨
      (i = .epilog ∧ t = s.finish) := by
  simpa only [h, Host.Outcome.next.injEq] using exec_cases i s

theorem destination_of_operand1 {i : Instr} {d : Reg} (h : operand1 i = some (.reg d)) : destination i = some d := by
  rw [destination, h]

/-- Settles O54: of the outcomes of an instruction only the pop moves the argument cursor. -/
theorem onlyPopTakesArguments : Obligations.OnlyPopTakesArguments := by
  intro i s t h
  obtain ⟨d, v, -, -, rfl⟩ | ⟨d, v, rfl, hv, rfl⟩ | ⟨f, -, -, rfl⟩ | ⟨-, rfl⟩ | ⟨-, rfl⟩ := exec_next_cases h
  · exact ⟨rfl, .inl rfl⟩
  · exact ⟨rfl, .inr ⟨d, rfl, rfl, by simpa using hv⟩⟩
  · exact ⟨rfl, .inl rfl⟩
  · exact ⟨rfl, .inl rfl⟩
  · exact ⟨rfl, .inl rfl⟩

/-- Settles O55: the two outcomes that write a register write the instruction's destination. -/
theorem onlyDestinationWritten : Obligations.OnlyDestinationWritten := by
  intro i s t r h hr
  obtain ⟨d, v, hd, -, rfl⟩ | ⟨d, v, rfl, -, rfl⟩ | ⟨f, -, -, rfl⟩ | ⟨-, rfl⟩ | ⟨-, rfl⟩ := exec_next_cases h
  · have hne : r ≠ d := fun e => hr (e ▸ destination_of_operand1 hd)
    exact State.setReg_reg_other _ v hne
  · have hne : r ≠ d := fun e => hr (e ▸ destination_of_operand1 rfl)
    exact State.setReg_reg_other _ v hne
  · rfl
  · rfl
  · rfl

/-- Settles O56: only the epilog's outcome writes the latch, only a fault the record, and only those two and the prolog the
status. -/
theorem statusWrittenByRunAndFault : Obligations.StatusWrittenByRunAndFault := by
  intro i s t h
  obtain ⟨d, v, -, -, rfl⟩ | ⟨d, v, rfl, -, rfl⟩ | ⟨f, -, -, rfl⟩ | ⟨rfl, rfl⟩ | ⟨rfl, rfl⟩ := exec_next_cases h
  · exact ⟨fun _ => rfl, fun _ => .inl rfl, fun hf => absurd rfl hf⟩
  · exact ⟨fun _ => rfl, fun _ => .inl rfl, fun hf => absurd rfl hf⟩
  · exact ⟨fun _ => rfl, fun _ => .inr rfl, fun _ => rfl⟩
  · exact ⟨fun _ => rfl, fun hk => absurd rfl hk, fun hf => absurd rfl hf⟩
  · exact ⟨fun he => absurd rfl he, fun hk => absurd rfl hk, fun hf => absurd rfl hf⟩

/-! ### The invariant -/

/-- Settles O47. -/
theorem resetIsIdle : Obligations.ResetIsIdle := ⟨rfl, rfl⟩

/-- Settles O48: the empty image is canonical, and the cursors stand at 0. -/
theorem resetMeetsInvariant : Obligations.ResetMeetsInvariant where
  memWf := Memory.wf_empty
  argBound := Nat.le_refl _
  pcBound _ := Nat.zero_le _

/-- After a fault the invariant bounds no byte cursor. -/
theorem inv_raise {s : State} (f : FaultRecord) (hm : s.mem.wf = true) (ha : s.argidx ≤ s.args.length) : Inv (s.raise f) where
  memWf := hm
  argBound := ha
  pcBound h := by simp at h

/-- The start of a run meets the invariant over a canonical image: it tests that the prolog's 20 bytes are there before it
passes them (40 R84). -/
theorem startRun_inv {q : Request} {s t : State} (hm : s.mem.wf = true) (h : startRun q s = .next t) : Inv t := by
  obtain ⟨-, he⟩ | ⟨p, -, ⟨-, he⟩ | ⟨-, -, he⟩ | ⟨hp, -, he⟩⟩ := startRun_cases q s <;> cases he.symm.trans h
  · exact inv_raise _ hm (Nat.zero_le _)
  · exact inv_raise _ hm (Nat.zero_le _)
  · exact inv_raise _ hm (Nat.zero_le _)
  · exact ⟨hm, Nat.zero_le _, fun _ => hp⟩

/-- An instruction other than the prolog whose bytes are inside the image keeps the invariant; a pop has an argument to pass. -/
theorem exec_inv {i : Instr} {s t : State} (hi : Inv s) (hne : i ≠ .prolog) (hfit : s.pc + i.size ≤ s.mem.extent)
    (h : exec i s = .next t) : Inv t := by
  obtain ⟨hm, ha, -⟩ := hi
  obtain ⟨d, v, -, -, rfl⟩ | ⟨d, v, rfl, hv, rfl⟩ | ⟨f, -, -, rfl⟩ | ⟨he, -⟩ | ⟨-, rfl⟩ := exec_next_cases h
  · exact ⟨hm, ha, fun _ => hfit⟩
  · exact ⟨hm, (List.getElem?_eq_some_iff.mp hv).1, fun _ => hfit⟩
  · exact inv_raise f hm ha
  · exact absurd he hne
  · exact ⟨hm, ha, fun _ => Nat.le_of_add_right_le hfit⟩

/-- One iteration of a run keeps the invariant: the window it decodes ends with the image at the latest. -/
theorem runStep_inv {s t : State} (hi : Inv s) (hr : s.status = .running) (h : runStep s = .next t) : Inv t := by
  obtain ⟨i, hd, he⟩ | ⟨off, n, -, he⟩ := runStep_cases s <;> rw [he] at h
  · obtain ⟨hne, hsize⟩ := decodeBoundary_ok hd
    have hpc := hi.pcBound (.inl hr)
    rw [Memory.window_length] at hsize
    exact exec_inv hi hne (by omega) h
  · cases h
    exact inv_raise _ hi.memWf hi.argBound

/-- Settles O49: a step is one iteration of a run or the start of one, and both keep the invariant. -/
theorem stepKeepsInvariant : Obligations.StepKeepsInvariant := by
  intro s t hi h
  obtain ⟨hr, -, hstep⟩ | ⟨q, -, -, hstep⟩ := step_next_cases h
  · exact runStep_inv hi hr hstep
  · exact startRun_inv hi.memWf hstep

/-! ### The cursor -/

/-- An instruction other than the prolog after which a run is still in progress is one of the eleven kinds, and the cursor has
passed its bytes (10 R14). -/
theorem exec_still_running {i : Instr} {s t : State} (hne : i ≠ .prolog) (h : exec i s = .next t) (ht : t.status = .running) :
    instrKind i ≠ none ∧ t.pc = s.pc + i.size := by
  obtain ⟨d, v, -, hk, rfl⟩ | ⟨d, v, rfl, -, rfl⟩ | ⟨f, -, -, rfl⟩ | ⟨he, -⟩ | ⟨-, rfl⟩ := exec_next_cases h
  · exact ⟨hk, rfl⟩
  · exact ⟨nofun, rfl⟩
  · cases ht
  · exact absurd he hne
  · cases ht

/-- Settles O52: what stays in RUNNING is no short fetch and no epilog, so the boundary's bytes are what `decode()` answers. -/
theorem cursorMovesByLength : Obligations.CursorMovesByLength := by
  intro s t hrun h ht
  rw [step_of_running hrun.1 hrun.2] at h
  obtain ⟨i, hd, he⟩ | ⟨off, n, -, he⟩ := runStep_cases s <;> rw [he] at h
  · obtain ⟨hkind, hpc⟩ := exec_still_running (decodeBoundary_ok hd).1 h ht
    obtain ⟨-, hb⟩ | ⟨-, -, hb⟩ | ⟨-, -, hb⟩ := decodeBoundary_cases (s.mem.window s.pc maxInstrBytes) <;> rw [hb] at hd
    · cases hd
    · cases hd
      exact absurd rfl hkind
    · exact ⟨i, hd, hkind, hpc, Instr.size_of_kind hkind⟩
  · cases h
    cases ht

end Sys2Proof.Machine
end

section
/-! The memory's rules (spec/20_memory.md): what `MemRead`, `Fetch8` and `Fetch32` yield, and that no step writes the image or
`Resolve`. -/

namespace Sys2Proof.Machine

/-! ### The value of a window -/

/-- A window that starts at a byte of the image is that byte and the window after it. -/
theorem Memory.window_succ_of_byteAt {m : Memory} {a : Nat} {b : Byte} (h : m.byteAt a = some b) (n : Nat) :
    m.window a (n + 1) = b :: m.window (a + 1) n := by
  rw [Memory.window, h]

/-- The window over four bytes of the image. -/
theorem Memory.window_four {m : Memory} {a : Nat} {b0 b1 b2 b3 : Byte} (h0 : m.byteAt a = some b0)
    (h1 : m.byteAt (a + 1) = some b1) (h2 : m.byteAt (a + 2) = some b2) (h3 : m.byteAt (a + 3) = some b3) :
    m.window a 4 = [b0, b1, b2, b3] := by
  rw [Memory.window_succ_of_byteAt h0, Memory.window_succ_of_byteAt h1, Memory.window_succ_of_byteAt h2,
    Memory.window_succ_of_byteAt h3, Memory.window]

/-- A position that holds a byte is inside the extent. -/
theorem Memory.lt_extent_of_byteAt {m : Memory} {a : Nat} {b : Byte} (h : m.byteAt a = some b) : a < m.extent :=
  (Memory.byteAt_eq_some_iff.mp h).1

/-- The little-endian value of a window inside the image, as R32's sum. -/
theorem leNat_window {m : Memory} {a n : Nat} (h : a + n ≤ m.extent) :
    leNat (m.window a n) = ∑ k ∈ Finset.range n, 2 ^ (8 * k) * (lookupCell m.cells (a + k)).toNat := by
  induction n generalizing a with
  | zero => rfl
  | succ n ih =>
    have hshift : ∀ k, 2 ^ (8 * (k + 1)) * (lookupCell m.cells (a + (k + 1))).toNat =
        2 ^ 8 * (2 ^ (8 * k) * (lookupCell m.cells (a + 1 + k)).toNat) := fun k => by
      rw [Nat.add_right_comm a 1 k, Nat.add_assoc a k 1]
      ring
    rw [Memory.window_succ_of_lt (by omega), leNat, ih (by omega), Finset.sum_range_succ', Finset.mul_sum]
    simp only [hshift, Nat.mul_zero, pow_zero, one_mul, Nat.add_zero]
    exact Nat.add_comm _ _

/-- Settles O13: the bounds test decides, and the window's value is the sum. -/
theorem memReadBoundsAndValue : Obligations.MemReadBoundsAndValue := by
  intro m addr n
  refine ⟨memRead_short, fun h => ?_⟩
  rw [memRead_inside h, leNat_window h]

/-! ### The fetches -/

/-- `Fetch8` at a byte of the image (20 R34). -/
theorem fetch8_of_byteAt {s : State} {b : Byte} (h : s.mem.byteAt s.pc = some b) : fetch8 s = .ok b (s.advance 1) := by
  have hfit : s.pc + 1 ≤ s.mem.extent := Memory.lt_extent_of_byteAt h
  have hvalue : BitVec.ofNat 8 (leNat [b]) = b := by simp [leNat]
  rw [fetch8, memRead_inside hfit, Memory.window_succ_of_byteAt h, Memory.window]
  exact congrArg (Fetched.ok · (s.advance 1)) hvalue

theorem fetch8_short {s : State} (h : s.pc + 1 > s.mem.extent) : fetch8 s = .raised (.fetchOutOfBounds s.pc 1) s := by
  rw [fetch8, memRead_short h]

/-- `Fetch32` at four bytes of the image (20 R35): the last of them alone shows that the access is inside. -/
theorem fetch32_of_byteAt {s : State} {b0 b1 b2 b3 : Byte} (h0 : s.mem.byteAt s.pc = some b0)
    (h1 : s.mem.byteAt (s.pc + 1) = some b1) (h2 : s.mem.byteAt (s.pc + 2) = some b2)
    (h3 : s.mem.byteAt (s.pc + 3) = some b3) : fetch32 s = .ok (imm32 b0 b1 b2 b3) (s.advance 4) := by
  have hfit : s.pc + 4 ≤ s.mem.extent := Memory.lt_extent_of_byteAt h3
  rw [fetch32, memRead_inside hfit, Memory.window_four h0 h1 h2 h3, imm32]

theorem fetch32_short {s : State} (h : s.pc + 4 > s.mem.extent) : fetch32 s = .raised (.fetchOutOfBounds s.pc 4) s := by
  rw [fetch32, memRead_short h]

/-- Settles O14. -/
theorem fetchReadsAndAdvances : Obligations.FetchReadsAndAdvances := fun _ =>
  ⟨fun _ => fetch8_of_byteAt, fetch8_short, fun _ _ _ _ => fetch32_of_byteAt, fetch32_short⟩

/-! ### The platform's parameters -/

/-- No instruction writes the image or `Resolve` (20 R36, R43). -/
theorem exec_keeps_platform {i : Instr} {s t : State} (h : exec i s = .next t) : t.mem = s.mem ∧ t.resolve = s.resolve := by
  obtain ⟨d, v, -, -, rfl⟩ | ⟨d, v, -, -, rfl⟩ | ⟨f, -, -, rfl⟩ | ⟨-, rfl⟩ | ⟨-, rfl⟩ := exec_next_cases h <;>
    exact ⟨rfl, rfl⟩

/-- No iteration of a run writes them: it executes an instruction or faults. -/
theorem runStep_keeps_platform {s t : State} (h : runStep s = .next t) : t.mem = s.mem ∧ t.resolve = s.resolve := by
  obtain ⟨i, -, he⟩ | ⟨off, n, -, he⟩ := runStep_cases s <;> rw [he] at h
  · exact exec_keeps_platform h
  · cases h
    exact ⟨rfl, rfl⟩

/-- The start of a run writes neither of them, whether it faults or begins. -/
theorem startRun_keeps_platform {q : Request} {s t : State} (h : startRun q s = .next t) :
    t.mem = s.mem ∧ t.resolve = s.resolve := by
  obtain ⟨-, he⟩ | ⟨p, -, ⟨-, he⟩ | ⟨-, -, he⟩ | ⟨-, -, he⟩⟩ := startRun_cases q s <;> cases he.symm.trans h <;>
    exact ⟨rfl, rfl⟩

/-- Settles O50: a step is one iteration of a run or the start of one, and the bytes are those of the same image. -/
theorem stepKeepsPlatform : Obligations.StepKeepsPlatform := by
  intro s t h
  have hkeep : t.mem = s.mem ∧ t.resolve = s.resolve := by
    obtain ⟨-, -, hstep⟩ | ⟨q, -, -, hstep⟩ := step_next_cases h
    · exact runStep_keeps_platform hstep
    · exact startRun_keeps_platform hstep
  obtain ⟨hmem, hresolve⟩ := hkeep
  exact ⟨hmem, hresolve, fun a => by rw [hmem]⟩

end Sys2Proof.Machine
end

section
/-! The encoding's rules (spec/30_encoding.md R50 to R69): the decode table row by row, what an encoding decodes to, what a decoded
instruction says about its bytes, and the encodings that fault. -/

namespace Sys2Proof

/-! ### ModRM byte and immediate -/

theorem modRM_toNat (mod : BitVec 2) (reg rm : BitVec 3) :
    (modRM mod reg rm).toNat = 64 * mod.toNat + 8 * reg.toNat + rm.toNat := by
  revert mod reg rm
  decide

/-- Settles O2: a byte is the ModRM byte of its fields, and the ModRM byte of any fields has just those. -/
theorem modRMFieldsCompose : Obligations.ModRMFieldsCompose := by
  intro m
  refine ⟨by rw [← modRM_toNat, modRM_of_fields], fun mod reg rm h => ?_⟩
  obtain rfl : m = modRM mod reg rm := BitVec.eq_of_toNat_eq (h.trans (modRM_toNat mod reg rm).symm)
  simp

theorem u32_i32 (v : Word) : u32 (i32 v) = v := BitVec.ofInt_toInt

/-- Settles O3. -/
theorem immediateIsLittleEndian : Obligations.ImmediateIsLittleEndian := fun b0 b1 b2 b3 =>
  ⟨imm32_toNat b0 b1 b2 b3, u32_i32 _⟩

/-- The register-direct ModRM byte as the number `0xC0 + 8*reg + rm` (30 R57). -/
theorem directModRM_toNat (reg rm : BitVec 3) : Machine.directModRM reg.toNat rm.toNat = modRM 3#2 reg rm := by
  revert reg rm
  decide

/-- A ModRM byte with mod 0 or 1 is the opcode's first MemoryOperand row (30 R57). -/
@[simp] theorem decodeModRM_low {low : BitVec 7 → Instr} {two : BitVec 6 → Instr}
    {direct : BitVec 3 → BitVec 3 → List Byte → Except DecodeStop Instr} (x : BitVec 7) (tail : List Byte) :
    decodeModRM ((0#1 ++ x) :: tail) low two direct = .ok (low x) := by
  have hfields : modField (0#1 ++ x) ≠ 3#2 ∧ modField (0#1 ++ x) ≠ 2#2 ∧ (0#1 ++ x).extractLsb' 0 7 = x := by
    revert x
    decide
  obtain ⟨h3, h2, hx⟩ := hfields
  rw [decodeModRM_cons, if_neg h3, if_neg h2, hx]

/-- A ModRM byte with mod 2 is the opcode's second MemoryOperand row (30 R57). -/
@[simp] theorem decodeModRM_two {low : BitVec 7 → Instr} {two : BitVec 6 → Instr}
    {direct : BitVec 3 → BitVec 3 → List Byte → Except DecodeStop Instr} (x : BitVec 6) (tail : List Byte) :
    decodeModRM ((2#2 ++ x) :: tail) low two direct = .ok (two x) := by
  have hfields : modField (2#2 ++ x) = 2#2 ∧ (2#2 ++ x).extractLsb' 0 6 = x := by
    revert x
    decide
  obtain ⟨h2, hx⟩ := hfields
  rw [decodeModRM_cons, h2, if_neg (by decide), if_pos rfl, hx]

/-- The immediate part reads a word from its own bytes. -/
@[simp] theorem decodeImm_imm32Bytes (off : Nat) (v : Word) (tail : List Byte) (k : Word → Instr) :
    decodeImm off (imm32Bytes v ++ tail) k = .ok (k v) :=
  (decodeImm_cons off _ _ _ _ tail k).trans (by rw [imm32_imm32Bytes])

/-! ### The decode table, one equation per row, each named after its first byte or its instruction (30 R60) -/

section

variable (rest : List Byte)

@[simp] theorem decode_01 : decode (0x01#8 :: rest) =
    decodeModRM rest .memLow01 .memTwo01 fun reg rm _ => .ok (.addRegReg (.ofBits rm) (.ofBits reg)) := rfl

@[simp] theorem decode_29 : decode (0x29#8 :: rest) =
    decodeModRM rest .memLow29 .memTwo29 fun reg rm _ => .ok (.subRegReg (.ofBits rm) (.ofBits reg)) := rfl

@[simp] theorem decode_31 : decode (0x31#8 :: rest) =
    decodeModRM rest .memLow31 .memTwo31 fun reg rm _ => .ok (.xorRegReg (.ofBits rm) (.ofBits reg)) := rfl

@[simp] theorem decode_81 : decode (0x81#8 :: rest) =
    decodeModRM rest .memLow81 .memTwo81 fun reg rm tail =>
      if reg = 0#3 then decodeImm 2 tail (.addRegImm (.ofBits rm))
      else if reg = 5#3 then decodeImm 2 tail (.subRegImm (.ofBits rm))
      else if reg = 6#3 then decodeImm 2 tail (.xorRegImm (.ofBits rm))
      else .ok (.badSub81 reg rm) := rfl

@[simp] theorem decode_89 : decode (0x89#8 :: rest) =
    decodeModRM rest .memLow89 .memTwo89 fun reg rm _ => .ok (.movRegReg (.ofBits rm) (.ofBits reg)) := rfl

@[simp] theorem decode_F7 : decode (0xF7#8 :: rest) =
    decodeModRM rest .memLowF7 .memTwoF7 fun reg rm _ =>
      if reg = 2#3 then .ok (.notReg (.ofBits rm))
      else if reg = 3#3 then .ok (.negReg (.ofBits rm))
      else .ok (.badSubF7 reg rm) := rfl

@[simp] theorem decode_pop (c : BitVec 3) : decode ((0b01011#5 ++ c) :: rest) = .ok (.popReg (.ofBits c)) := by
  have hrow : (0b01011#5 ++ c) ≠ 0x01#8 ∧ (0b01011#5 ++ c) ≠ 0x29#8 ∧ (0b01011#5 ++ c) ≠ 0x31#8 := by
    revert c
    decide
  obtain ⟨h01, h29, h31⟩ := hrow
  obtain ⟨hhigh, hc⟩ := opHigh_of_append 0b01011#5 c
  rw [decode, if_neg h01, if_neg h29, if_neg h31, if_pos hhigh, hc]

@[simp] theorem decode_mov (c : BitVec 3) :
    decode ((0b10111#5 ++ c) :: rest) = decodeImm 1 rest (.movRegImm (.ofBits c)) := by
  have hrow : (0b10111#5 ++ c) ≠ 0x01#8 ∧ (0b10111#5 ++ c) ≠ 0x29#8 ∧ (0b10111#5 ++ c) ≠ 0x31#8 ∧
      (0b10111#5 ++ c) ≠ 0x81#8 ∧ (0b10111#5 ++ c) ≠ 0x89#8 := by
    revert c
    decide
  obtain ⟨h01, h29, h31, h81, h89⟩ := hrow
  obtain ⟨hhigh, hc⟩ := opHigh_of_append 0b10111#5 c
  have hpop : opHigh (0b10111#5 ++ c) ≠ 0b01011#5 := by rw [hhigh]; decide
  rw [decode, if_neg h01, if_neg h29, if_neg h31, if_neg hpop, if_neg h81, if_neg h89, if_pos hhigh, hc]

end

/-- The supported first bytes, as the decode table lists them (30 R60, R65). -/
theorem supportedByte_iff (op : Byte) : supportedByte op = true ↔
    op = 0x01#8 ∨ op = 0x29#8 ∨ op = 0x31#8 ∨ (0x58#8 ≤ op ∧ op ≤ 0x5F#8) ∨ op = 0x81#8 ∨ op = 0x89#8 ∨
      (0xB8#8 ≤ op ∧ op ≤ 0xBF#8) ∨ op = 0xF7#8 := by
  simp [supportedByte, or_assoc]

/-- Every other first byte is the last row of the table (30 R65). -/
theorem decode_unsupported {op : Byte} (h : supportedByte op = false) (rest : List Byte) :
    decode (op :: rest) = .ok (.otherByte op) := by
  have hset := mt (supportedByte_iff op).mpr (by simp [h])
  rw [← opHigh_pop_iff, ← opHigh_mov_iff] at hset
  simp only [not_or] at hset
  obtain ⟨h01, h29, h31, hpop, h81, h89, hmov, hF7⟩ := hset
  simp only [decode, h01, h29, h31, hpop, h81, h89, hmov, hF7, if_false]

end Sys2Proof

namespace Sys2Proof.Machine

/-- A fault taken after `n` bytes have been read writes the status and the record only (60 R141). -/
theorem tookFault_advance_raise (s : State) (n : Nat) (f : FaultRecord) : TookFault s ((s.advance n).raise f) f where
  status := rfl
  fault := rfl
  regs _ := rfl
  args := rfl
  argidx := rfl
  result := rfl
  platform := ⟨fun _ => rfl, rfl, rfl, rfl⟩

/-! ### Decode and encode -/

/-- Settles O4: each row of the decode table reads back the operands that `encode` has laid out. -/
theorem decodeOfEncode : Obligations.DecodeOfEncode := by
  intro i hwf hp he tail
  cases i with
  | prolog => exact absurd rfl hp
  | epilog => exact absurd rfl he
  | addRegReg d r | subRegReg d r | xorRegReg d r | movRegReg d r => simp [encode, decodeModRM_direct]
  | addRegImm d v | subRegImm d v | xorRegImm d v => simp [encode, decodeModRM_direct]
  | notReg d | negReg d => simp [encode, decodeModRM_direct]
  | popReg d => simp [encode]
  | movRegImm d v => simp [encode]
  | memLow01 x | memLow29 x | memLow31 x | memLow81 x | memLow89 x | memLowF7 x => simp [encode]
  | memTwo01 x | memTwo29 x | memTwo31 x | memTwo81 x | memTwo89 x | memTwoF7 x => simp [encode]
  | badSub81 sub rm =>
    simp only [Instr.wf, supportedSub81, Bool.not_eq_true', Bool.or_eq_false_iff, beq_eq_false_iff_ne] at hwf
    simp [encode, decodeModRM_direct, hwf]
  | badSubF7 sub rm =>
    simp only [Instr.wf, supportedSubF7, Bool.not_eq_true', Bool.or_eq_false_iff, beq_eq_false_iff_ne] at hwf
    simp [encode, decodeModRM_direct, hwf]
  | otherByte op => exact decode_unsupported (by simpa [Instr.wf] using hwf) tail

/-- Bytes that are the encoding of a well-formed instruction decode to it. -/
theorem decodesAs_of_encode_eq {i : Instr} {bs : List Byte} (h : encode i = bs) (hwf : i.wf = true) (hp : i ≠ .prolog)
    (he : i ≠ .epilog) : DecodesAs bs i :=
  h ▸ decodeOfEncode i hwf hp he

/-- The epilog's first byte alone is a pop, so `decode()` answers no epilog (40 R85). -/
theorem decode_ne_epilog {bs : List Byte} {i : Instr} (h : decode bs = .ok i) : i ≠ .epilog := by
  rintro rfl
  obtain ⟨tail, rfl⟩ := (decode_readFrom h).front
  have hpop : decode (encode .epilog ++ tail) = .ok (.popReg .esi) := rfl
  cases hpop.symm.trans h

/-- Settles O5: what decodes is read from the front of the bytes. -/
theorem encodeOfDecode : Obligations.EncodeOfDecode := by
  intro bs i h
  have hread := decode_readFrom h
  refine ⟨hread.wf, decode_ne_prolog h, decode_ne_epilog h, ?_, hread.size_le⟩
  obtain ⟨tail, rfl⟩ := hread.front
  rw [← encode_length, List.take_left]

/-! ### What the first byte says -/

/-- The length of one of the eleven kinds, by the first byte of its encoding (30 R68). -/
theorem size_of_encode_head {i : Instr} {op : Byte} (hk : instrKind i ≠ none) (h : (encode i).head? = some op) :
    i.size =
      if 0x58#8 ≤ op ∧ op ≤ 0x5F#8 then 1
      else if 0xB8#8 ≤ op ∧ op ≤ 0xBF#8 then 5
      else if op = 0x81#8 then 6
      else 2 := by
  cases i with
  | addRegReg _ _ | subRegReg _ _ | xorRegReg _ _ | movRegReg _ _ => cases h; rfl
  | addRegImm _ _ | subRegImm _ _ | xorRegImm _ _ => cases h; rfl
  | notReg _ | negReg _ => cases h; rfl
  | popReg d => cases h; cases d <;> rfl
  | movRegImm d _ => cases h; cases d <;> rfl
  | _ => exact absurd rfl hk

/-- The first byte of what decodes is the first byte of its encoding. -/
theorem encode_head_of_decode {op : Byte} {rest : List Byte} {i : Instr} (h : decode (op :: rest) = .ok i) :
    (encode i).head? = some op := by
  have hne : encode i ≠ [] := by cases i <;> exact List.cons_ne_nil _ _
  rw [List.head?_eq_some_head hne, (decode_readFrom h).front.head hne]
  rfl

/-- Settles O7: the first byte of what decodes is that of its encoding. -/
theorem lengthFromFirstByte : Obligations.LengthFromFirstByte := fun _ _ _ h hk =>
  size_of_encode_head hk (encode_head_of_decode h)

/-- Settles O8: a first byte outside the set is the table's last row, a byte of the set is not well-formed there, and the 256 bytes
are counted. -/
theorem unsupportedFirstByte : Obligations.UnsupportedFirstByte := by
  refine ⟨fun op tail hop => ?_, fun op tail i hop h b => ?_, rfl, rfl⟩
  · rw [← supportedByte_iff, Bool.not_eq_true] at hop
    exact ⟨.otherByte op, decode_unsupported hop tail, fun s => ⟨_, exec_otherByte op s, tookFault_advance_raise s 1 _⟩⟩
  · rintro rfl
    cases encode_head_of_decode h
    have hwf : (!supportedByte op) = true := (decode_readFrom h).wf
    rw [(supportedByte_iff op).mpr hop] at hwf
    cases hwf

/-! ### The encodings that fault -/

/-- An opcode with a ModRM byte rejects every mod other than 3 if its two MemoryOperand rows take that fault (30 R57). -/
theorem rejectsMemoryOperand_of_rows {op : Byte} {low : BitVec 7 → Instr} {two : BitVec 6 → Instr}
    {direct : BitVec 3 → BitVec 3 → List Byte → Except DecodeStop Instr}
    (hdecode : ∀ rest, decode (op :: rest) = decodeModRM rest low two direct)
    (hlow : ∀ x s, exec (low x) s = .next ((s.advance 2).raise (.memoryOperand s.pc op (0#1 ++ x))))
    (htwo : ∀ x s, exec (two x) s = .next ((s.advance 2).raise (.memoryOperand s.pc op (2#2 ++ x)))) :
    RejectsMemoryOperand op := by
  intro m tail hm
  have h3 : modField m ≠ 3#2 := by
    revert m
    decide
  rw [hdecode, decodeModRM_cons, if_neg h3]
  by_cases h2 : modField m = 2#2
  · refine ⟨_, if_pos h2, fun s => ⟨_, htwo _ s, ?_⟩⟩
    rw [append_of_modField_two h2]
    exact tookFault_advance_raise s 2 _
  · refine ⟨_, if_neg h2, fun s => ⟨_, hlow _ s, ?_⟩⟩
    rw [append_of_modField_low h3 h2]
    exact tookFault_advance_raise s 2 _

/-- Settles O9: the six opcodes, each with its two rows. -/
theorem memoryOperandRejected : Obligations.MemoryOperandRejected := by
  rintro op (rfl | rfl | rfl | rfl | rfl | rfl)
  · exact rejectsMemoryOperand_of_rows decode_01 exec_memLow01 exec_memTwo01
  · exact rejectsMemoryOperand_of_rows decode_29 exec_memLow29 exec_memTwo29
  · exact rejectsMemoryOperand_of_rows decode_31 exec_memLow31 exec_memTwo31
  · exact rejectsMemoryOperand_of_rows decode_81 exec_memLow81 exec_memTwo81
  · exact rejectsMemoryOperand_of_rows decode_89 exec_memLow89 exec_memTwo89
  · exact rejectsMemoryOperand_of_rows decode_F7 exec_memLowF7 exec_memTwoF7

/-- A sub-op is rejected if it decodes to a row that takes UnsupportedOpcode with that sub-op (30 R61, R62). -/
theorem rejectsSubOp_of_row {op : Byte} {sub : BitVec 3} {row : BitVec 3 → Instr}
    (hdecode : ∀ rm tail, decode (op :: modRM 3#2 sub rm :: tail) = .ok (row rm))
    (hexec : ∀ rm s, exec (row rm) s = .next ((s.advance 2).raise (.unsupportedOpcode s.pc op (some sub)))) :
    RejectsSubOp op sub := by
  intro rm tail
  have hmodRM : BitVec.ofNat 8 (0xC0 + 8 * sub.toNat + rm.toNat) = modRM 3#2 sub rm := directModRM_toNat sub rm
  rw [hmodRM]
  exact ⟨row rm, hdecode rm tail, fun s => ⟨_, hexec rm s, tookFault_advance_raise s 2 _⟩⟩

theorem rejectsSubOp_81 {sub : BitVec 3} (h0 : sub ≠ 0#3) (h5 : sub ≠ 5#3) (h6 : sub ≠ 6#3) : RejectsSubOp 0x81 sub :=
  rejectsSubOp_of_row (fun rm tail => by simp [decodeModRM_direct, h0, h5, h6]) (exec_badSub81 sub)

theorem rejectsSubOp_F7 {sub : BitVec 3} (h2 : sub ≠ 2#3) (h3 : sub ≠ 3#3) : RejectsSubOp 0xF7 sub :=
  rejectsSubOp_of_row (fun rm tail => by simp [decodeModRM_direct, h2, h3]) (exec_badSubF7 sub)

/-- Settles O10: the bytes of the three instructions are their encodings. -/
theorem subOpsOf81 : Obligations.SubOpsOf81 := by
  refine ⟨fun d b0 b1 b2 b3 => ⟨?_, ?_, ?_⟩, fun _ => rejectsSubOp_81⟩
  all_goals refine decodesAs_of_encode_eq ?_ rfl nofun nofun
  all_goals
    rw [encode, imm32Bytes_imm32, ← directModRM_toNat]
    rfl

/-- Settles O11: the bytes of the two instructions are their encodings. -/
theorem subOpsOfF7 : Obligations.SubOpsOfF7 := by
  refine ⟨fun d => ⟨?_, ?_⟩, fun _ => rejectsSubOp_F7⟩
  all_goals refine decodesAs_of_encode_eq ?_ rfl nofun nofun
  all_goals
    rw [encode, ← directModRM_toNat]
    rfl

/-! ### Sample words -/

/-- Settles O1: each word is read by computation. -/
theorem sampleWordsDecode : Obligations.SampleWordsDecode :=
  ⟨rfl, rfl, rfl, rfl, rfl, rfl, rfl, rfl, rfl, rfl, rfl, rfl, rfl, rfl, rfl, rfl, rfl, by decide⟩

end Sys2Proof.Machine
end

section
/-! The textual form (spec/30_encoding.md R70, R71): the text of an operand determines the operand, and the text of an instruction
splits into a mnemonic, a destination and a source, which together name the instruction. -/

namespace Sys2Proof.Machine

/-! ### Operands -/

theorem hexDigit_injective : Function.Injective hexDigit := by
  unfold Function.Injective
  decide

/-- Filled up with zeros to its length again, a digit list is as it was: the dropped digits were zeros. -/
theorem leftpad_dropLeadingZeros (ds : List (BitVec 4)) : (dropLeadingZeros ds).leftpad ds.length 0 = ds := by
  induction ds using dropLeadingZeros.induct with
  | case1 => rfl
  | case2 d => rfl
  | case3 e ds ih =>
    have hlen : (dropLeadingZeros (e :: ds)).length ≤ (e :: ds).length := by
      simpa only [List.length_leftpad, sup_eq_left] using congrArg List.length ih
    rw [dropLeadingZeros, if_pos rfl, List.length_cons, List.leftpad, Nat.succ_sub hlen, List.replicate_succ]
    exact congrArg (0 :: ·) ih
  | case4 d e ds hd =>
    rw [dropLeadingZeros, if_neg hd, List.leftpad, Nat.sub_self]
    rfl

theorem wordDigits_injective : Function.Injective wordDigits := by
  intro v w h
  have := v.isLt; have := w.isLt
  simp only [wordDigits, List.cons.injEq, and_true, ← BitVec.toNat_inj, BitVec.extractLsb'_toNat, Nat.shiftRight_eq_div_pow] at h
  apply BitVec.eq_of_toNat_eq
  omega

/-- All words have eight digits, so the dropped zeros can be told from the digits that are left. -/
theorem immText_injective : Function.Injective immText := by
  intro v w h
  have hdigits : dropLeadingZeros (wordDigits v) = dropLeadingZeros (wordDigits w) :=
    List.map_injective_iff.mpr hexDigit_injective (List.cons_injective (List.cons_injective h))
  apply wordDigits_injective
  calc wordDigits v = (dropLeadingZeros (wordDigits v)).leftpad 8 0 := (leftpad_dropLeadingZeros (wordDigits v)).symm
    _ = (dropLeadingZeros (wordDigits w)).leftpad 8 0 := by rw [hdigits]
    _ = wordDigits w := leftpad_dropLeadingZeros (wordDigits w)

theorem regText_length (r : Reg) : (regText r).length = 3 := by cases r <;> rfl

theorem regText_injective : Function.Injective regText := by
  intro r q h
  revert h
  cases r <;> cases q <;> decide

/-- An immediate begins with `0`, a register does not. -/
theorem regText_ne_immText (r : Reg) (v : Word) : regText r ≠ immText v := by
  cases r <;> exact fun h => nomatch (List.cons.inj h).1

theorem operandText_injective : Function.Injective operandText := by
  intro a b h
  cases a <;> cases b
  case reg.reg => exact congrArg _ (regText_injective h)
  case reg.imm => exact absurd h (regText_ne_immText _ _)
  case imm.reg => exact absurd h.symm (regText_ne_immText _ _)
  case imm.imm => exact congrArg _ (immText_injective h)

/-! ### Instructions -/

/-- What follows the destination in a text: nothing, or a comma, a space and the source. -/
def sourceText : Option Operand → List Char
  | none => []
  | some b => ',' :: ' ' :: operandText b

theorem sourceText_injective : Function.Injective sourceText := by
  intro a b h
  cases a <;> cases b
  case none.none => rfl
  case none.some => cases h
  case some.none => cases h
  case some.some => exact congrArg _ (operandText_injective (List.cons_injective (List.cons_injective h)))

theorem kindText_length (k : OpKind) : (kindText k).length = 3 := by cases k <;> rfl

/-- The instruction that a mnemonic, a destination and a source name, if any. -/
def instrOfParts (mnemonic : List Char) (d : Reg) : Option Operand → Option Instr
  | some (.reg r) =>
    if mnemonic = kindText .addRegReg then some (.addRegReg d r)
    else if mnemonic = kindText .subRegReg then some (.subRegReg d r)
    else if mnemonic = kindText .xorRegReg then some (.xorRegReg d r)
    else if mnemonic = kindText .movRegReg then some (.movRegReg d r)
    else none
  | some (.imm v) =>
    if mnemonic = kindText .addRegImm then some (.addRegImm d v)
    else if mnemonic = kindText .subRegImm then some (.subRegImm d v)
    else if mnemonic = kindText .xorRegImm then some (.xorRegImm d v)
    else if mnemonic = kindText .movRegImm then some (.movRegImm d v)
    else none
  | none =>
    if mnemonic = kindText .negReg then some (.negReg d)
    else if mnemonic = kindText .notReg then some (.notReg d)
    else if mnemonic = kindText .popReg then some (.popReg d)
    else none

/-- The text of one of the eleven kinds, by its parts, which name the instruction. -/
theorem instrText_parts {i : Instr} (h : instrKind i ≠ none) :
    ∃ k d, instrText i = some (kindText k ++ (' ' :: regText d ++ sourceText (operand2 i))) ∧
      instrOfParts (kindText k) d (operand2 i) = some i := by
  cases i with
  | addRegReg d _ => exact ⟨.addRegReg, d, rfl, rfl⟩
  | subRegReg d _ => exact ⟨.subRegReg, d, rfl, rfl⟩
  | xorRegReg d _ => exact ⟨.xorRegReg, d, rfl, rfl⟩
  | movRegReg d _ => exact ⟨.movRegReg, d, rfl, rfl⟩
  | addRegImm d _ => exact ⟨.addRegImm, d, rfl, rfl⟩
  | subRegImm d _ => exact ⟨.subRegImm, d, rfl, rfl⟩
  | xorRegImm d _ => exact ⟨.xorRegImm, d, rfl, rfl⟩
  | movRegImm d _ => exact ⟨.movRegImm, d, rfl, rfl⟩
  | notReg d => exact ⟨.notReg, d, congrArg some (List.append_nil _).symm, rfl⟩
  | negReg d => exact ⟨.negReg, d, congrArg some (List.append_nil _).symm, rfl⟩
  | popReg d => exact ⟨.popReg, d, congrArg some (List.append_nil _).symm, rfl⟩
  | _ => exact absurd rfl h

/-- Settles O12: mnemonics and register names have three characters, so equal texts have equal parts. -/
theorem textIsInjective : Obligations.TextIsInjective := by
  intro i j hi h
  have hj : instrKind j ≠ none := fun hj => by
    obtain ⟨k, d, ht, -⟩ := instrText_parts hi
    rw [ht, instrText, hj] at h
    cases h
  obtain ⟨k, d, hti, hpi⟩ := instrText_parts hi
  obtain ⟨l, e, htj, hpj⟩ := instrText_parts hj
  rw [hti, htj, Option.some_inj] at h
  obtain ⟨hkind, hrest⟩ := List.append_inj h ((kindText_length k).trans (kindText_length l).symm)
  obtain ⟨hreg, hsource⟩ := List.append_inj (List.cons_injective hrest) ((regText_length d).trans (regText_length e).symm)
  rw [hkind, regText_injective hreg, sourceText_injective hsource, hpj] at hpi
  exact (Option.some_inj.mp hpi).symm

end Sys2Proof.Machine
end

section
/-! The run's rules (spec/40_run_loop.md): the boundary compare, the start and the end of a run, one iteration and its agreement
with the spec's pseudocode, and that every run ends. -/

namespace Sys2Proof

theorem Instr.size_pos (i : Instr) : 0 < i.size := by
  cases i <;> exact Nat.succ_pos _

/-! ### The boundary -/

/-- The epilog's bytes at a boundary are the epilog, whatever follows (40 R85). -/
theorem decodeBoundary_of_take {bs : List Byte} (h : bs.take 4 = epilogBytes) : decodeBoundary bs = .ok .epilog := by
  have hlen : 4 ≤ bs.length := by
    have := congrArg List.length h
    rw [List.length_take] at this
    exact min_eq_left_iff.mp this
  rw [decodeBoundary, if_neg (Nat.not_lt.mpr hlen), if_pos h]

/-- Four bytes at a boundary that are not the epilog are left to `decode()` (40 R85). -/
theorem decodeBoundary_of_take_ne {bs : List Byte} (hlen : 4 ≤ bs.length) (h : bs.take 4 ≠ epilogBytes) :
    decodeBoundary bs = decode bs := by
  rw [decodeBoundary, if_neg (Nat.not_lt.mpr hlen), if_neg h]

theorem decodeBoundary_of_short {bs : List Byte} (h : bs.length < 4) : decodeBoundary bs = .error (.short 0 4) := if_pos h

/-- An instruction's bytes decode to it at a boundary too, unless they and what follows begin with the epilog. -/
theorem decodeBoundary_encode {i : Instr} {tail : List Byte} (hwf : i.wf = true) (hp : i ≠ .prolog) (he : i ≠ .epilog)
    (hlen : 4 ≤ (encode i ++ tail).length) (hne : (encode i ++ tail).take 4 ≠ epilogBytes) :
    decodeBoundary (encode i ++ tail) = .ok i :=
  (decodeBoundary_of_take_ne hlen hne).trans (Machine.decodeOfEncode i hwf hp he tail)

/-- Settles O6. -/
theorem boundaryDecoding : Obligations.BoundaryDecoding :=
  ⟨fun _ => decodeBoundary_of_take rfl, fun _ => decodeBoundary_of_short, fun _ _ => decodeBoundary_encode⟩

end Sys2Proof

namespace Sys2Proof.Machine

/-! ### The lookahead compare -/

/-- A window is a pattern exactly when the image has each of its bytes in place. -/
theorem Memory.window_eq_iff {m : Memory} {a : Nat} {p : List Byte} :
    m.window a p.length = p ↔ ∀ k, k < p.length → m.byteAt (a + k) = p[k]? := by
  constructor
  · intro h k hk
    rw [← Memory.window_getElem? m a hk, h]
  · intro h
    refine List.ext_getElem? fun k => ?_
    by_cases hk : k < p.length
    · rw [Memory.window_getElem? m a hk, h k hk]
    · have hlen := Memory.window_length m a p.length
      rw [List.getElem?_eq_none (by omega), List.getElem?_eq_none (by omega)]

/-- Settles O15: inside the image the answer is whether the window is the pattern. -/
theorem lookaheadCompares : Obligations.LookaheadCompares := by
  intro p s
  refine ⟨peek_short, fun h => ⟨_, peek_inside h, ?_⟩⟩
  rw [beq_iff_eq, Memory.window_eq_iff]

/-- The bytes that stand at the cursor are the front of every window at least as long. -/
theorem StandsAtPc.front {s : State} {bs : List Byte} (h : StandsAtPc s bs) {n : Nat} (hn : bs.length ≤ n) :
    bs <+: s.mem.window s.pc n := by
  have hfront := List.take_prefix bs.length (s.mem.window s.pc n)
  rwa [Memory.window_take s.mem s.pc hn, h] at hfront

/-! ### What the state's updates leave unchanged -/

theorem samePlatform_of_eq {s t : State} (hmem : t.mem = s.mem) (hresolve : t.resolve = s.resolve)
    (hrequest : t.request = s.request) : SamePlatform s t :=
  ⟨fun a => by rw [hmem], hmem, hresolve, hrequest⟩

/-- A register write after the cursor has moved over `n` bytes changes that register and the cursor only. -/
theorem writesOnly_advance_setReg (s : State) (d : Reg) (v : Word) (n : Nat) : WritesOnly s ((s.advance n).setReg d v) d n where
  regs _ hr := State.setReg_reg_other _ v hr
  pc := rfl
  args := rfl
  argidx := rfl
  status := rfl
  result := rfl
  fault := rfl
  platform := samePlatform_of_eq rfl rfl rfl

/-- Settles O16. -/
theorem operandsReadAndWrite : Obligations.OperandsReadAndWrite := fun s r v w =>
  ⟨rfl, (u32_i32 w).symm, ⟨_, writeOperand_reg r v s, State.setReg_reg_same s r v, writesOnly_advance_setReg s r v 0⟩,
    ⟨_, writeOperand_imm w v s, tookFault_advance_raise s 0 .internalError⟩⟩

/-- Settles O33: the two updates are `advance` with `begin`, and `finish`. -/
theorem markersActOnTheRun : Obligations.MarkersActOnTheRun := fun s =>
  ⟨⟨_, exec_prolog s, rfl, rfl, rfl, rfl, rfl, rfl, rfl, samePlatform_of_eq rfl rfl rfl⟩,
    ⟨_, exec_epilog s, rfl, rfl, rfl, rfl, rfl, rfl, rfl, samePlatform_of_eq rfl rfl rfl⟩⟩

/-! ### One iteration -/

/-- What an iteration does with the answer of the decoder: execute the instruction, or take the fault of the short fetch
(40 R94, 60 R135). -/
def runDecoded (s : State) : Except DecodeStop Instr → Result
  | .ok i => exec i s
  | .error (.short off n) => .next ((s.advance off).raise (.fetchOutOfBounds (s.pc + off) n))

theorem step_eq_runDecoded {s : State} (h : Running s) :
    step s = runDecoded s (decodeBoundary (s.mem.window s.pc maxInstrBytes)) := by
  obtain ⟨hstatus, hrequest⟩ := h
  rw [step_of_running hstatus hrequest]
  obtain ⟨i, hd, he⟩ | ⟨off, n, hd, he⟩ := runStep_cases s
  · rw [he, hd, runDecoded]
  · rw [he, hd, runDecoded]

/-- Settles O36. -/
theorem stepRunsDecodedInstruction : Obligations.StepRunsDecodedInstruction := by
  intro s i hrun hd
  rw [step_eq_runDecoded hrun, hd, runDecoded]

/-- With fewer than four bytes left, an iteration is the short fetch of the epilog compare (40 R80, R94). -/
theorem step_beyond_image {s : State} (hrun : Running s) (h : s.pc + 4 > s.mem.extent) :
    step s = .next (s.raise (.fetchOutOfBounds s.pc 4)) := by
  have hlen : (s.mem.window s.pc maxInstrBytes).length < 4 := by
    rw [Memory.window_length]
    omega
  rw [step_eq_runDecoded hrun, decodeBoundary_of_short hlen]
  rfl

/-- Settles O38. -/
theorem boundaryBeyondImage : Obligations.BoundaryBeyondImage := fun s hrun h =>
  ⟨_, step_beyond_image hrun h, tookFault_advance_raise s 0 _⟩

/-- Where the epilog stands at the cursor, an iteration ends the run (40 R85, R86). -/
theorem step_at_epilog {s : State} (hrun : Running s) (h : StandsAtPc s epilogBytes) : step s = .next s.finish := by
  have hd : decodeBoundary (s.mem.window s.pc maxInstrBytes) = .ok .epilog :=
    decodeBoundary_of_take ((Memory.window_take s.mem s.pc (by decide)).trans h)
  rw [stepRunsDecodedInstruction s .epilog hrun hd, exec_epilog]

/-- Settles O40. -/
theorem epilogEndsRun : Obligations.EpilogEndsRun := fun _ hrun h =>
  ⟨_, step_at_epilog hrun h, rfl, rfl, rfl, rfl, rfl, rfl, rfl, samePlatform_of_eq rfl rfl rfl⟩

/-- Settles O41: the five bytes are the encoding of the move, and their first four are not the epilog. -/
theorem epilogBytesAsImmediate : Obligations.EpilogBytesAsImmediate := by
  intro s hrun h
  obtain ⟨tail, hw⟩ := h.front (n := maxInstrBytes) (by decide)
  have hd : decodeBoundary (encode (.movRegImm .eax 0xC35B5F5E) ++ tail) = .ok (.movRegImm .eax 0xC35B5F5E) :=
    decodeBoundary_encode rfl nofun nofun (Nat.le_add_left _ _) nofun
  have hstep := stepRunsDecodedInstruction s (.movRegImm .eax 0xC35B5F5E) hrun (hw ▸ hd)
  exact ⟨_, hstep.trans (exec_movRegImm _ _ s), hrun.1, State.setReg_reg_same _ _ _, rfl⟩

/-- Settles O46. -/
theorem statesWithoutTransition : Obligations.StatesWithoutTransition := by
  intro s
  constructor
  · intro hstatus hrequest
    cases hs : s.status
    case running => exact absurd hs hstatus
    all_goals simp [step, stepMachine, hs, hrequest]
  · intro hstatus hrequest
    obtain ⟨q, hq⟩ := Option.ne_none_iff_exists'.mp hrequest
    simp [step, stepMachine, hstatus, hq]

/-! ### The start of a run -/

/-- The fields by which a start has reset the run, the register file as a whole. -/
theorem runReset_of_eq {s t : State} {q : Request} (hregs : t.regs = Regs.zero) (hargidx : t.argidx = 0)
    (hargs : t.args = q.args) (hrequest : t.request = none) (hmem : t.mem = s.mem) (hresolve : t.resolve = s.resolve) :
    RunReset s t q :=
  ⟨fun r => by rw [State.reg, hregs, Regs.zero_get], hargidx, hargs, hrequest, hmem, hresolve⟩

/-- Everything the step of an accepted `emulate` can do whose address is mapped (40 R94, the second to the fourth row). -/
theorem step_start_cases {s : State} {q : Request} {p : Nat} (hstatus : s.status ≠ .running) (hrequest : s.request = some q)
    (hresolve : resolveRva s.resolve q.startRva = some p) :
    (p + 20 > s.mem.extent ∧ step s = .next (((s.runReset q.args).seek p).raise (.fetchOutOfBounds p 20))) ∨
      (p + 20 ≤ s.mem.extent ∧ s.mem.window p 20 ≠ prologBytes ∧
        step s = .next (((s.runReset q.args).seek p).raise (.missingProlog q.startRva p))) ∨
      (p + 20 ≤ s.mem.extent ∧ s.mem.window p 20 = prologBytes ∧
        step s = .next (((s.runReset q.args).seek p).advance 20).begin) := by
  rw [step_of_request hstatus hrequest]
  obtain ⟨hnone, -⟩ | ⟨p', hp', hcases⟩ := startRun_cases q s
  · cases hnone.symm.trans hresolve
  · cases hp'.symm.trans hresolve
    exact hcases

/-- Settles O43. -/
theorem startBeyondImage : Obligations.StartBeyondImage := by
  intro s q p hstatus hrequest hresolve hshort
  obtain ⟨-, he⟩ | ⟨hfit, -⟩ | ⟨hfit, -⟩ := step_start_cases hstatus hrequest hresolve
  · exact ⟨_, he, runReset_of_eq rfl rfl rfl rfl rfl rfl, rfl, rfl⟩
  · exact absurd hshort (Nat.not_lt.mpr hfit)
  · exact absurd hshort (Nat.not_lt.mpr hfit)

/-- Settles O45: a window of 20 bytes lies inside the image. -/
theorem startWithProlog : Obligations.StartWithProlog := by
  intro s q p hstatus hrequest hresolve hprolog
  have hlen : prologBytes.length = min 20 (s.mem.extent - p) := hprolog ▸ Memory.window_length s.mem p 20
  obtain ⟨hshort, -⟩ | ⟨-, hne, -⟩ | ⟨-, -, he⟩ := step_start_cases hstatus hrequest hresolve
  · have : prologBytes.length = 20 := rfl
    omega
  · exact absurd hprolog hne
  · exact ⟨_, he, runReset_of_eq rfl rfl rfl rfl rfl rfl, rfl, rfl⟩

/-! ### The pseudocode of one iteration -/

/-- What an iteration of the pseudocode does once its `decode()` has answered or raised (40 R85, R87). -/
def Fetched.executed (start : Nat) : Fetched RefInstr → Result
  | .ok insn t => refExecute insn start t
  | .raised f t => .next (t.raise f)

@[simp] theorem Fetched.ok_andThen {α β : Type} (a : α) (s : State) (k : α → State → Fetched β) :
    (Fetched.ok a s).andThen k = k a s := rfl

theorem refIteration_beyond_image {s : State} (h : s.pc + 4 > s.mem.extent) :
    refIteration s = .next (s.raise (.fetchOutOfBounds s.pc 4)) := by
  rw [refIteration, peek_short (p := epilogBytes) h]
  rfl

theorem refIteration_at_epilog {s : State} (h : s.pc + 4 ≤ s.mem.extent) (he : s.mem.window s.pc 4 = epilogBytes) :
    refIteration s = .next s.finish := by
  have hpeek : peek epilogBytes s = .ok true := (peek_inside h).trans (congrArg _ (beq_iff_eq.mpr he))
  rw [refIteration, hpeek]

theorem refIteration_of_decode {s : State} (h : s.pc + 4 ≤ s.mem.extent) (he : s.mem.window s.pc 4 ≠ epilogBytes) :
    refIteration s = (refDecode s).executed s.pc := by
  have hpeek : peek epilogBytes s = .ok false := (peek_inside h).trans (congrArg _ (beq_eq_false_iff_ne.mpr he))
  rw [refIteration, hpeek]
  cases refDecode s <;> rfl

/-- The register of a one-byte or OI opcode, which the pseudocode finds by a subtraction (30 R51, R53, R59). -/
theorem rmField_of_sub (op : Byte) :
    (op - 0x58#8).setWidth 3 = rmField op ∧ (op - 0xB8#8).setWidth 3 = rmField op := by
  revert op
  decide

/-- `0xFFFFFFFF - a` is the bitwise complement of `a` (43 R116). -/
theorem aluNot_eq_not (a : Word) : aluNot a = ~~~a := by
  have := a.isLt
  apply BitVec.eq_of_toNat_eq
  rw [aluNot, u32, BitVec.toNat_ofInt, BitVec.toNat_not]
  omega

/-- The complement, executed as the pseudocode does. -/
theorem exec_notReg_eq_refExecute (d : Reg) (s : State) :
    exec (.notReg d) s = refExecute ⟨.notReg, .reg d, none⟩ s.pc (s.advance 2) := by
  rw [exec_notReg, aluNot_eq_not]
  rfl

/-- The pop, executed as the pseudocode does: its test of the cursor against the supply's length is whether an argument is
there (44 R120). -/
theorem exec_popReg_eq_refExecute (d : Reg) (s : State) :
    exec (.popReg d) s = refExecute ⟨.popReg, .reg d, none⟩ s.pc (s.advance 1) := by
  rw [exec_popReg]
  cases h : s.args[s.argidx]? with
  | some v =>
    have hlt : ¬ s.argidx ≥ s.args.length := Nat.not_le.mpr (List.getElem?_eq_some_iff.mp h).1
    have hget : s.args.getD s.argidx 0 = v := by rw [List.getD_eq_getElem?_getD, h, Option.getD_some]
    simp only [refExecute, State.advance_args, State.advance_argidx, if_neg hlt, hget, execPopReg_some d h]
    rfl
  | none =>
    have hge : s.argidx ≥ s.args.length := List.getElem?_eq_none_iff.mp h
    simp only [refExecute, State.advance_args, State.advance_argidx, execPopReg_none d h]
    exact (if_pos hge).symm

/-- The immediate, read from a window or by `Fetch32`: the two agree if they execute the instruction alike (30 R58, R59). -/
theorem decodeImm_eq_refRegImm {s : State} {off n : Nat} {kind : OpKind} {r : BitVec 3} {instr : Word → Instr} (hn : 4 ≤ n)
    (hexec : ∀ v, exec (instr v) s =
      refExecute ⟨kind, .reg (.ofBits r), some (.imm v)⟩ s.pc ((s.advance off).advance 4)) :
    runDecoded s (decodeImm off (s.mem.window (s.pc + off) n) instr) = (refRegImm kind r (s.advance off)).executed s.pc := by
  have hlen := Memory.window_length s.mem (s.pc + off) n
  obtain ⟨hshort, hd⟩ | ⟨b0, b1, b2, b3, tail, hw, hd⟩ := decodeImm_cases off (s.mem.window (s.pc + off) n) instr
  · have hfetch : fetch32 (s.advance off) = .raised (.fetchOutOfBounds (s.pc + off) 4) (s.advance off) :=
      fetch32_short (by simp only [State.advance_pc, State.advance_mem]; omega)
    rw [hd, refRegImm, hfetch]
    rfl
  · have hfour : s.mem.window (s.pc + off) 4 = [b0, b1, b2, b3] := by
      rw [← Memory.window_take s.mem (s.pc + off) hn, hw]
      rfl
    have hfit : s.pc + off + 4 ≤ s.mem.extent := by
      rw [hw] at hlen
      simp only [List.length_cons] at hlen
      omega
    have hfetch : fetch32 (s.advance off) = .ok (imm32 b0 b1 b2 b3) ((s.advance off).advance 4) := by
      rw [fetch32, State.advance_pc, State.advance_mem, memRead_inside hfit, hfour, imm32]
    rw [hd, refRegImm, hfetch]
    exact hexec _

/-- The ModRM byte, read from a window or by `Fetch8`: the two agree if the two MemoryOperand rows take that fault and what
follows a register-direct byte agrees (30 R57, R59). -/
theorem decodeModRM_eq_refModRM {s : State} {op : Byte} {n : Nat} {low : BitVec 7 → Instr} {two : BitVec 6 → Instr}
    {direct : BitVec 3 → BitVec 3 → List Byte → Except DecodeStop Instr}
    {next : BitVec 3 × BitVec 3 → State → Fetched RefInstr} (hfit : s.pc + 1 < s.mem.extent)
    (hlow : ∀ x, exec (low x) s = .next ((s.advance 2).raise (.memoryOperand s.pc op (0#1 ++ x))))
    (htwo : ∀ x, exec (two x) s = .next ((s.advance 2).raise (.memoryOperand s.pc op (2#2 ++ x))))
    (hdirect : ∀ reg rm, runDecoded s (direct reg rm (s.mem.window (s.pc + 2) n)) =
      (next (reg, rm) (s.advance 2)).executed s.pc) :
    runDecoded s (decodeModRM (s.mem.window (s.pc + 1) (n + 1)) low two direct) =
      ((refModRM s.pc op (s.advance 1)).andThen next).executed s.pc := by
  obtain ⟨m, hm⟩ : ∃ m, s.mem.byteAt (s.pc + 1) = some m := ⟨_, Memory.byteAt_eq_some_iff.mpr ⟨hfit, rfl⟩⟩
  have hfetch : fetch8 (s.advance 1) = .ok m (s.advance 2) := fetch8_of_byteAt hm
  rw [Memory.window_succ_of_byteAt hm, decodeModRM_cons, refModRM, hfetch]
  rw [Fetched.ok_andThen]
  by_cases h3 : modField m = 3#2
  · rw [if_pos h3, if_neg (not_not.mpr h3)]
    exact hdirect _ _
  · rw [if_neg h3, if_pos h3]
    by_cases h2 : modField m = 2#2
    · rw [if_pos h2, runDecoded, htwo, append_of_modField_two h2]
      rfl
    · rw [if_neg h2, runDecoded, hlow, append_of_modField_low h3 h2]
      rfl

/-- A test that both decoders make, each in its own form. -/
theorem runDecoded_ite {s : State} {c c' : Prop} [Decidable c] [Decidable c'] {d e : Except DecodeStop Instr}
    {x y : Fetched RefInstr} (hc : c ↔ c') (hpos : c → runDecoded s d = x.executed s.pc)
    (hneg : ¬ c → runDecoded s e = y.executed s.pc) :
    runDecoded s (if c then d else e) = (if c' then x else y).executed s.pc := by
  by_cases h : c
  · rw [if_pos h, if_pos (hc.mp h), hpos h]
  · rw [if_neg h, if_neg (mt hc.mpr h), hneg h]

/-- Where four bytes are left, the window's decoder and the pseudocode's have the same effect. The cases are the rows of the
decode table (30 R59, R60). -/
theorem runDecoded_decode_eq_refDecode {s : State} (hfit : s.pc + 4 ≤ s.mem.extent) :
    runDecoded s (decode (s.mem.window s.pc maxInstrBytes)) = (refDecode s).executed s.pc := by
  obtain ⟨op, hop⟩ : ∃ op, s.mem.byteAt s.pc = some op := ⟨_, Memory.byteAt_eq_some_iff.mpr ⟨by omega, rfl⟩⟩
  have hmodRM : s.pc + 1 < s.mem.extent := by omega
  obtain ⟨hpopReg, hmovReg⟩ := rmField_of_sub op
  rw [maxInstrBytes, Memory.window_succ_of_byteAt hop, decode, refDecode, fetch8_of_byteAt hop]
  simp only [Fetched.ok_andThen]
  refine runDecoded_ite Iff.rfl ?add fun _ => runDecoded_ite Iff.rfl ?sub fun _ => runDecoded_ite Iff.rfl ?xor fun _ =>
    runDecoded_ite (opHigh_pop_iff op) ?pop fun _ => runDecoded_ite Iff.rfl ?imm fun _ => runDecoded_ite Iff.rfl ?mov fun _ =>
    runDecoded_ite (opHigh_mov_iff op) ?movImm fun _ => runDecoded_ite Iff.rfl ?unary fun _ => rfl
  case add =>
    rintro rfl
    exact decodeModRM_eq_refModRM hmodRM (exec_memLow01 · s) (exec_memTwo01 · s) fun _ _ => rfl
  case sub =>
    rintro rfl
    exact decodeModRM_eq_refModRM hmodRM (exec_memLow29 · s) (exec_memTwo29 · s) fun _ _ => rfl
  case xor =>
    rintro rfl
    exact decodeModRM_eq_refModRM hmodRM (exec_memLow31 · s) (exec_memTwo31 · s) fun _ _ => rfl
  case pop =>
    intro _
    rw [hpopReg]
    exact exec_popReg_eq_refExecute _ s
  case imm =>
    rintro rfl
    exact decodeModRM_eq_refModRM hmodRM (exec_memLow81 · s) (exec_memTwo81 · s) fun reg rm =>
      runDecoded_ite Iff.rfl (fun _ => decodeImm_eq_refRegImm le_rfl fun _ => rfl) fun _ =>
      runDecoded_ite Iff.rfl (fun _ => decodeImm_eq_refRegImm le_rfl fun _ => rfl) fun _ =>
      runDecoded_ite Iff.rfl (fun _ => decodeImm_eq_refRegImm le_rfl fun _ => rfl) fun _ => rfl
  case mov =>
    rintro rfl
    exact decodeModRM_eq_refModRM hmodRM (exec_memLow89 · s) (exec_memTwo89 · s) fun _ _ => rfl
  case movImm =>
    intro _
    rw [hmovReg]
    exact decodeImm_eq_refRegImm (by decide) fun _ => rfl
  case unary =>
    rintro rfl
    exact decodeModRM_eq_refModRM hmodRM (exec_memLowF7 · s) (exec_memTwoF7 · s) fun reg rm =>
      runDecoded_ite Iff.rfl (fun _ => exec_notReg_eq_refExecute _ s) fun _ =>
      runDecoded_ite Iff.rfl (fun _ => rfl) fun _ => rfl

/-- Settles O57: the three outcomes of the epilog compare, and where it answers no, the two decoders. -/
theorem stepIsPseudocode : Obligations.StepIsPseudocode := by
  intro s hrun
  by_cases hfit : s.pc + 4 ≤ s.mem.extent
  · by_cases he : s.mem.window s.pc 4 = epilogBytes
    · rw [step_at_epilog hrun he, refIteration_at_epilog hfit he]
    · have hlen : 4 ≤ (s.mem.window s.pc maxInstrBytes).length := by
        rw [Memory.window_length, maxInstrBytes]
        omega
      have htake : (s.mem.window s.pc maxInstrBytes).take 4 ≠ epilogBytes := by
        rwa [Memory.window_take s.mem s.pc (by decide)]
      rw [step_eq_runDecoded hrun, decodeBoundary_of_take_ne hlen htake, runDecoded_decode_eq_refDecode hfit,
        refIteration_of_decode hfit he]
  · have hshort := Nat.lt_of_not_le hfit
    rw [step_beyond_image hrun hshort, refIteration_beyond_image hshort]

/-! ### A run in progress -/

/-- A step of a run in progress ends the run, or the run goes on with the cursor moved forward inside the image (40 R91, R94). -/
theorem running_step {s : State} (hrun : Running s) :
    ∃ t, step s = .next t ∧ t.request = none ∧
      (Ended t ∨ (t.status = .running ∧ s.pc < t.pc ∧ t.pc ≤ s.mem.extent)) := by
  obtain ⟨hstatus, hrequest⟩ := hrun
  rw [step_of_running hstatus hrequest]
  obtain ⟨i, hd, he⟩ | ⟨off, n, -, he⟩ := runStep_cases s
  · rw [he]
    obtain ⟨hprolog, hsize⟩ := decodeBoundary_ok hd
    have hpos := Instr.size_pos i
    rw [Memory.window_length] at hsize
    obtain ⟨d, v, -, -, he⟩ | ⟨d, v, rfl, -, he⟩ | ⟨f, -, -, he⟩ | ⟨hp, -⟩ | ⟨-, he⟩ := exec_cases i s
    · exact ⟨_, he, hrequest, .inr ⟨hstatus, Nat.lt_add_of_pos_right hpos, show s.pc + i.size ≤ _ by omega⟩⟩
    · exact ⟨_, he, hrequest, .inr ⟨hstatus, Nat.lt_succ_self _, show s.pc + (Instr.popReg d).size ≤ _ by omega⟩⟩
    · exact ⟨_, he, hrequest, .inl (.inr rfl)⟩
    · exact absurd hp hprolog
    · exact ⟨_, he, hrequest, .inl (.inl rfl)⟩
  · exact ⟨_, he, hrequest, .inl (.inr rfl)⟩

/-- Settles O51. -/
theorem runningAlwaysSteps : Obligations.RunningAlwaysSteps := by
  intro s hrun
  obtain ⟨t, hstep, hrequest, hended | ⟨hstatus, -, -⟩⟩ := running_step hrun
  · exact ⟨t, hstep, hrequest, .inr hended⟩
  · exact ⟨t, hstep, hrequest, .inl hstatus⟩

/-- An instruction that takes a running state to FAULTED has taken a fault after its bytes were read, and nothing else. -/
theorem exec_faulted {i : Instr} {s t : State} (hs : s.status = .running) (h : exec i s = .next t) (ht : t.status = .faulted) :
    ∃ f, t = (s.advance i.size).raise f := by
  obtain ⟨d, v, -, -, rfl⟩ | ⟨d, v, -, -, rfl⟩ | ⟨f, -, -, rfl⟩ | ⟨-, rfl⟩ | ⟨-, rfl⟩ := exec_next_cases h
  · cases hs.symm.trans ht
  · cases hs.symm.trans ht
  · exact ⟨f, rfl⟩
  · cases ht
  · cases ht

/-- Settles O53: the fault is an instruction's or a short fetch's, and `raise` writes the status and the record only. -/
theorem faultingStepIsPrecise : Obligations.FaultingStepIsPrecise := by
  rintro s t ⟨hstatus, hrequest⟩ h ht
  rw [step_of_running hstatus hrequest] at h
  obtain ⟨i, -, he⟩ | ⟨off, n, -, he⟩ := runStep_cases s <;> rw [he] at h
  · obtain ⟨f, rfl⟩ := exec_faulted hstatus h ht
    exact ⟨rfl, rfl, rfl, rfl⟩
  · cases h
    exact ⟨rfl, rfl, rfl, rfl⟩

/-! ### Every run ends -/

/-- The run from `s` ends in `t` after exactly `k` steps. -/
inductive RunsTo : Nat → State → State → Prop
  | ended {t : State} : Ended t → RunsTo 0 t t
  | more {k : Nat} {s u t : State} : Running s → step s = .next u → RunsTo k u t → RunsTo (k + 1) s t

/-- A run in progress ends within as many steps as the image has bytes from the cursor on, and one: each step that does not end
it moves the cursor forward inside the image (40 R91). -/
theorem exists_runsTo_of_running {s : State} (hrun : Running s) :
    ∃ k t, 1 ≤ k ∧ k ≤ s.mem.extent - s.pc + 1 ∧ RunsTo k s t := by
  induction hn : s.mem.extent - s.pc using Nat.strong_induction_on generalizing s with
  | _ n ih =>
    obtain ⟨u, hstep, hrequest, hended | ⟨hstatus, hpc, hfit⟩⟩ := running_step hrun
    · exact ⟨1, u, le_rfl, by omega, .more hrun hstep (.ended hended)⟩
    · obtain ⟨hmem, -, -⟩ := stepKeepsPlatform s u hstep
      have hless : u.mem.extent - u.pc < n := by
        rw [hmem]
        omega
      obtain ⟨k, t, -, hk, hruns⟩ := ih _ hless ⟨hstatus, hrequest⟩ rfl
      exact ⟨k + 1, t, by omega, by omega, .more hrun hstep hruns⟩

theorem RunsTo.isEnded {k : Nat} {s t : State} (h : RunsTo k s t) : Ended t := by
  induction h with
  | ended ht => exact ht
  | more _ _ _ ih => exact ih

theorem core_run_succ {s u : State} (h : step s = .next u) (k : Nat) : core.run (k + 1) s = core.run k u := by
  have hcore : core.step s = .next u := h
  simp only [Host.Core.run, hcore]

/-- The host's `k` steps arrive where the run ends. -/
theorem RunsTo.core_run {k : Nat} {s t : State} (h : RunsTo k s t) : core.run k s = .next t := by
  induction h with
  | ended _ => rfl
  | more _ hstep _ ih => exact (core_run_succ hstep _).trans ih

/-- Settles O58. -/
theorem everyRunEnds : Obligations.EveryRunEnds := by
  intro s hrun
  obtain ⟨k, t, hpos, hk, hruns⟩ := exists_runsTo_of_running hrun
  exact ⟨k, t, hpos, hk, hruns.core_run, hruns.isEnded⟩

/-! ### The host's transaction -/

theorem runToEnd_of_ended {t : State} (h : Ended t) (n : Nat) : runToEnd n t = .next t := by
  cases n with
  | zero => rfl
  | succ n =>
    obtain hs | hs := h
    · rw [runToEnd, hs]
    · rw [runToEnd, hs]

/-- `runToEnd` with enough steps answers where the run ends. -/
theorem RunsTo.runToEnd_eq {k n : Nat} {s t : State} (h : RunsTo k s t) (hn : k ≤ n) : runToEnd n s = .next t := by
  induction h generalizing n with
  | ended ht => exact runToEnd_of_ended ht n
  | more hrun hstep _ ih =>
    obtain ⟨m, rfl⟩ := Nat.exists_eq_add_of_le' (Nat.le_of_add_left_le hn)
    rw [runToEnd, hrun.1, hstep]
    exact ih (Nat.le_of_succ_le_succ hn)

/-- The start of a run has ended it with a fault or left it in progress (40 R94). -/
theorem startRun_ended_or_running (q : Request) (s : State) : ∃ t, startRun q s = .next t ∧ (Ended t ∨ Running t) := by
  obtain ⟨-, he⟩ | ⟨p, -, ⟨-, he⟩ | ⟨-, -, he⟩ | ⟨-, -, he⟩⟩ := startRun_cases q s
  · exact ⟨_, he, .inl (.inr rfl)⟩
  · exact ⟨_, he, .inl (.inr rfl)⟩
  · exact ⟨_, he, .inl (.inr rfl)⟩
  · exact ⟨_, he, .inr ⟨rfl, rfl⟩⟩

/-- Outside a run `emulate` answers the end of the run it starts: the image's extent and one bounds its steps (40 R81, R91). -/
theorem emulate_ends (rva : Rva) (args : List Word) {s : State} (h : s.status ≠ .running) :
    ∃ t, emulate rva args s = .next t ∧ Ended t := by
  obtain ⟨u, hstart, hu⟩ := startRun_ended_or_running ⟨rva, args⟩ (s.submit ⟨rva, args⟩)
  have hstep : step (s.submit ⟨rva, args⟩) = .next u := (step_of_request (s := s.submit ⟨rva, args⟩) h rfl).trans hstart
  rw [emulate, hstep]
  obtain hended | hrun := hu
  · exact ⟨u, runToEnd_of_ended hended _, hended⟩
  · obtain ⟨k, t, -, hk, hruns⟩ := exists_runsTo_of_running hrun
    exact ⟨t, hruns.runToEnd_eq (by omega), hruns.isEnded⟩

/-- What has ended has an outcome to read (60 R142). -/
theorem Ended.outcome {t : State} (h : Ended t) :
    (∃ v, t.outcome = some (.done v)) ∨ (∃ f, t.outcome = some (.faulted f)) := by
  obtain hs | hs := h
  · exact .inl ⟨t.result, by rw [State.outcome, hs]⟩
  · exact .inr ⟨t.fault, by rw [State.outcome, hs]⟩

/-- Settles O59. -/
theorem emulateAlwaysAnswers : Obligations.EmulateAlwaysAnswers := by
  intro rva args s h
  obtain ⟨t, hemulate, hended⟩ := emulate_ends rva args h
  exact ⟨t, hemulate, hended, hended.outcome⟩

end Sys2Proof.Machine
end

section
/-! The rules of ADD, SUB and XOR (spec/41_add_sub_xor.md R100 to R106): the ALU as arithmetic modulo 2^32, what a short immediate
fetch does, then the six instructions and their corner cases. -/

namespace Sys2Proof

/-! ### Narrowing to 32 bits (00 R9) -/

/-- The value of a narrowed integer. -/
theorem u32_toNat (n : Int) : ((u32 n).toNat : Int) = n % 2 ^ 32 := by
  rw [u32, BitVec.toNat_ofInt, Int.toNat_of_nonneg (Int.emod_nonneg n (by decide))]
  rfl

theorem u32_add (m n : Int) : u32 (m + n) = u32 m + u32 n := BitVec.ofInt_add m n

theorem u32_sub (m n : Int) : u32 (m - n) = u32 m - u32 n := by
  rw [Int.sub_eq_add_neg, u32_add, BitVec.sub_eq_add_neg]
  exact congrArg (u32 m + ·) BitVec.ofInt_neg

/-- Narrowing the unsigned reading of a word changes nothing. -/
theorem u32_of_toNat (v : Word) : u32 (v.toNat : Int) = v := by
  rw [u32, BitVec.ofInt_natCast, BitVec.ofNat_toNat, BitVec.setWidth_eq]

end Sys2Proof

namespace Sys2Proof.Machine

/-! ### The ALU -/

theorem aluAdd_eq_add (a b : Word) : aluAdd a b = a + b := by
  rw [aluAdd, u32_add, u32_of_toNat, u32_of_toNat]

theorem aluSub_eq_sub (a b : Word) : aluSub a b = a - b := by
  rw [aluSub, u32_sub, u32_of_toNat, u32_of_toNat]

theorem aluAdd_toNat (a b : Word) : (aluAdd a b).toNat = (a.toNat + b.toNat) % 2 ^ 32 := by
  rw [aluAdd_eq_add, BitVec.toNat_add]

theorem aluSub_toNat (a b : Word) : ((aluSub a b).toNat : Int) = ((a.toNat : Int) - b.toNat) % 2 ^ 32 := u32_toNat _

theorem aluXor_getLsbD (a b : Word) (k : Nat) : (aluXor a b).getLsbD k = (a.getLsbD k != b.getLsbD k) := BitVec.getLsbD_xor

/-- Adding the negation is subtracting. -/
theorem aluAdd_neg (a b : Word) : aluAdd a (-b) = aluSub a b := by
  rw [aluAdd_eq_add, aluSub_eq_sub, BitVec.sub_eq_add_neg]

/-- Subtracting the negation is adding. -/
theorem aluSub_neg (a b : Word) : aluSub a (-b) = aluAdd a b := by
  rw [← aluAdd_neg, BitVec.neg_neg]

theorem aluSub_self (a : Word) : aluSub a a = 0 := by rw [aluSub_eq_sub, BitVec.sub_self]; rfl

theorem aluXor_self (a : Word) : aluXor a a = 0 := BitVec.xor_self

/-- Exclusive-or with all ones is the complement (43 R116). -/
theorem aluXor_allOnes (a : Word) : aluXor a (BitVec.allOnes 32) = aluNot a := by
  rw [aluXor, BitVec.xor_allOnes, aluNot_eq_not]

/-- The same exclusive-or twice gives the first operand back. -/
theorem aluXor_aluXor_cancel (a b : Word) : aluXor (aluXor a b) b = a := by
  rw [aluXor, aluXor, BitVec.xor_assoc, BitVec.xor_self, BitVec.xor_zero]

/-- Settles O30: narrowing is a homomorphism, so the signed and the unsigned readings give the same word. -/
theorem arithmeticIsModulo : Obligations.ArithmeticIsModulo := by
  refine ⟨fun a b => ⟨aluAdd_toNat a b, aluSub_toNat a b, ?_, ?_, fun k _ => aluXor_getLsbD a b k⟩, rfl, rfl⟩
  · rw [aluAdd_eq_add, u32_add, u32_i32, u32_i32]
  · rw [aluSub_eq_sub, u32_sub, u32_i32, u32_i32]

/-! ### The register-register forms -/

/-- A two-byte encoding with a register-direct ModRM byte, that byte written as the number `0xC0 + 8*reg + rm` (30 R52, R57). -/
theorem decodesAs_directModRM {i : Instr} {op : Byte} {reg rm : BitVec 3} (h : encode i = [op, modRM 3#2 reg rm])
    (hwf : i.wf = true) (hp : i ≠ .prolog) (he : i ≠ .epilog) : DecodesAs [op, directModRM reg.toNat rm.toNat] i := by
  rw [directModRM_toNat]
  exact decodesAs_of_encode_eq h hwf hp he

/-- Settles O19. -/
theorem addRegRegRule : Obligations.AddRegRegRule := by
  refine ⟨fun d r s => ⟨_, exec_addRegReg d r s, ?_, writesOnly_advance_setReg s d _ 2⟩,
    fun d r => decodesAs_directModRM rfl rfl nofun nofun, memoryOperandRejected 0x01 (by decide)⟩
  rw [State.setReg_reg_same, aluAdd_toNat]

/-- Settles O20. -/
theorem subRegRegRule : Obligations.SubRegRegRule := by
  refine ⟨fun d r s => ⟨_, exec_subRegReg d r s, ?_, writesOnly_advance_setReg s d _ 2⟩,
    fun d r => decodesAs_directModRM rfl rfl nofun nofun, memoryOperandRejected 0x29 (by decide)⟩
  rw [State.setReg_reg_same, aluSub_toNat]

/-- Settles O21. -/
theorem xorRegRegRule : Obligations.XorRegRegRule := by
  refine ⟨fun d r s => ⟨_, exec_xorRegReg d r s, fun k _ => ?_, writesOnly_advance_setReg s d _ 2⟩,
    fun d r => decodesAs_directModRM rfl rfl nofun nofun, memoryOperandRejected 0x31 (by decide)⟩
  rw [State.setReg_reg_same, aluXor_getLsbD]

/-! ### The register-immediate forms -/

/-- Where bytes that ask for an immediate are followed by fewer than four, the step is the short fetch of the immediate, provided
the boundary's compare finds no epilog (60 R135). -/
theorem immediateFetchFaults_of_decode {first : List Byte} (hlen : first.length + 4 ≤ maxInstrBytes)
    (hepilog : ∀ tail, (first ++ tail).take 4 ≠ epilogBytes)
    (hdecode : ∀ tail, tail.length < 4 → decode (first ++ tail) = .error (.short first.length 4)) :
    ImmediateFetchFaults first := by
  intro s hrun hstands hfit hshort
  obtain ⟨tail, hw⟩ := hstands.front (n := maxInstrBytes) (Nat.le_of_add_right_le hlen)
  have hwindow := Memory.window_length s.mem s.pc maxInstrBytes
  rw [← hw] at hwindow
  have htail : tail.length < 4 := by
    rw [List.length_append] at hwindow
    omega
  have hfour : 4 ≤ (first ++ tail).length := by
    rw [hwindow, maxInstrBytes]
    omega
  have hboundary : decodeBoundary (s.mem.window s.pc maxInstrBytes) = .error (.short first.length 4) := by
    rw [← hw, decodeBoundary_of_take_ne hfour (hepilog tail), hdecode tail htail]
  rw [step_eq_runDecoded hrun, hboundary]
  exact ⟨_, rfl, tookFault_advance_raise s _ _⟩

/-- The first two bytes of an `81` instruction ask for its immediate (30 R61). -/
theorem immediateFetchFaults_81 {sub : BitVec 3} (hsub : supportedSub81 sub = true) (d : Reg) :
    ImmediateFetchFaults [0x81, directModRM sub.toNat d.bits.toNat] := by
  rw [directModRM_toNat]
  refine immediateFetchFaults_of_decode le_rfl (fun tail h => absurd (List.cons.inj h).1 (by decide)) fun tail htail => ?_
  simp only [supportedSub81, Bool.or_eq_true, beq_iff_eq] at hsub
  obtain (rfl | rfl) | rfl := hsub
  all_goals simp [decodeModRM_direct, decodeImm_short htail]

/-- The faults that the three `81` instructions share (41 R101, R103, R105). -/
theorem faults_81 {sub : BitVec 3} (hsub : supportedSub81 sub = true) :
    (∀ d : Reg, ImmediateFetchFaults [0x81, directModRM sub.toNat d.bits.toNat]) ∧
      RejectsMemoryOperand 0x81 ∧ ∀ bad : BitVec 3, bad ≠ 0#3 → bad ≠ 5#3 → bad ≠ 6#3 → RejectsSubOp 0x81 bad :=
  ⟨immediateFetchFaults_81 hsub, memoryOperandRejected 0x81 (by decide), fun _ => rejectsSubOp_81⟩

/-- Settles O23. -/
theorem addRegImmRule : Obligations.AddRegImmRule := by
  refine ⟨fun d v s => ⟨_, exec_addRegImm d v s, ?_, writesOnly_advance_setReg s d _ 6⟩, fun d b0 b1 b2 b3 => ?_,
    faults_81 (sub := 0#3) rfl⟩
  · rw [State.setReg_reg_same, aluAdd_toNat]
  · obtain ⟨hadd, -, -⟩ := subOpsOf81.1 d b0 b1 b2 b3
    exact hadd

/-- Settles O24. -/
theorem subRegImmRule : Obligations.SubRegImmRule := by
  refine ⟨fun d v s => ⟨_, exec_subRegImm d v s, ?_, writesOnly_advance_setReg s d _ 6⟩, fun d b0 b1 b2 b3 => ?_,
    faults_81 (sub := 5#3) rfl⟩
  · rw [State.setReg_reg_same, aluSub_toNat]
  · obtain ⟨-, hsub, -⟩ := subOpsOf81.1 d b0 b1 b2 b3
    exact hsub

/-- Settles O25. -/
theorem xorRegImmRule : Obligations.XorRegImmRule := by
  refine ⟨fun d v s => ⟨_, exec_xorRegImm d v s, fun k _ => ?_, writesOnly_advance_setReg s d _ 6⟩, fun d b0 b1 b2 b3 => ?_,
    faults_81 (sub := 6#3) rfl⟩
  · rw [State.setReg_reg_same, aluXor_getLsbD]
  · obtain ⟨-, -, hxor⟩ := subOpsOf81.1 d b0 b1 b2 b3
    exact hxor

/-! ### Corner cases -/

theorem exec_addRegImm_neg (d : Reg) (v : Word) (s : State) : exec (.addRegImm d (-v)) s = exec (.subRegImm d v) s := by
  rw [exec_addRegImm, aluAdd_neg, exec_subRegImm]

theorem exec_subRegImm_neg (d : Reg) (v : Word) (s : State) : exec (.subRegImm d (-v)) s = exec (.addRegImm d v) s := by
  rw [exec_subRegImm, aluSub_neg, exec_addRegImm]

/-- The same exclusive-or of two different registers twice: the second reads its source unchanged (41 R104). -/
theorem exec_xorRegReg_twice {d r : Reg} (h : r ≠ d) (s : State) :
    ∃ t u, exec (.xorRegReg d r) s = .next t ∧ exec (.xorRegReg d r) t = .next u ∧ u.regs = s.regs := by
  refine ⟨_, _, exec_xorRegReg d r s, exec_xorRegReg d r _, Regs.ext_get fun x => ?_⟩
  rw [State.setReg_reg_same, State.setReg_reg_other _ _ h, State.advance_reg, aluXor_aluXor_cancel, State.setReg_regs,
    Regs.get_set]
  by_cases hx : x = d
  · rw [if_pos hx, hx]
    rfl
  · rw [if_neg hx]
    exact Regs.get_set_other s.regs _ hx

/-- Settles O32: the immediate 0xFFFFFFFF is the negation of 1, and all ones. -/
theorem arithmeticCornerCases : Obligations.ArithmeticCornerCases := by
  refine fun d s => ⟨exec_addRegImm_neg d 1 s, exec_subRegImm_neg d 1 s,
    ⟨_, _, exec_xorRegImm d (BitVec.allOnes 32) s, exec_notReg d s, ?complement⟩,
    ⟨_, exec_subRegReg d d s, ?clear⟩, ⟨_, exec_xorRegReg d d s, ?clearXor⟩, fun r hr => exec_xorRegReg_twice hr s⟩
  case complement => rw [aluXor_allOnes]; rfl
  case clear => rw [State.setReg_reg_same, aluSub_self]
  case clearXor => rw [State.setReg_reg_same, aluXor_self]

end Sys2Proof.Machine
end

section
/-! The rules of MOV (spec/42_mov.md R110, R111). -/

namespace Sys2Proof

/-- The opcode of a MovRegImm as the number `0xB8 + r` (30 R53). -/
theorem movOpcode_toNat (c : BitVec 3) : BitVec.ofNat 8 (0xB8 + c.toNat) = 0b10111#5 ++ c := by
  revert c
  decide

end Sys2Proof

namespace Sys2Proof.Machine

/-- MOV answers its source and has no use for the old value of the destination (42 R110, R111). -/
@[simp] theorem aluMov_eq_right (old b : Word) : aluMov old b = b := rfl

/-- Settles O22. -/
theorem movRegRegRule : Obligations.MovRegRegRule := by
  refine ⟨fun d r s => ⟨_, exec_movRegReg d r s, ?_, writesOnly_advance_setReg s d _ 2⟩,
    fun d r => decodesAs_directModRM rfl rfl nofun nofun, memoryOperandRejected 0x89 (by decide)⟩
  rw [State.setReg_reg_same, aluMov_eq_right]

/-- No MovRegImm opcode is the epilog's first byte, a pop: the two differ in their high bits (30 R51, R53). -/
theorem take_movOpcode_ne_epilog (c : BitVec 3) (tail : List Byte) :
    ([0b10111#5 ++ c] ++ tail).take 4 ≠ epilogBytes := by
  intro h
  have hop : 0b10111#5 ++ c = 0x5E#8 := (List.cons.inj h).1
  have hhigh : opHigh (0x5E#8) = 0b10111#5 := hop ▸ (opHigh_of_append 0b10111#5 c).1
  exact absurd hhigh (by decide)

/-- Settles O26: the four bytes after the opcode are the encoding of the immediate, or too few for it. -/
theorem movRegImmRule : Obligations.MovRegImmRule := by
  refine ⟨fun d v s => ⟨_, exec_movRegImm d v s, ?value, writesOnly_advance_setReg s d _ 5⟩, fun d b0 b1 b2 b3 => ?bytes,
    fun d => ?short⟩
  case value => rw [State.setReg_reg_same, aluMov_eq_right]
  case bytes =>
    rw [movOpcode_toNat]
    exact decodesAs_of_encode_eq (by rw [encode, imm32Bytes_imm32]) rfl nofun nofun
  case short =>
    rw [movOpcode_toNat]
    refine immediateFetchFaults_of_decode (Nat.le_succ 5) (take_movOpcode_ne_epilog d.bits) fun tail htail => ?_
    exact (decode_mov tail d.bits).trans (decodeImm_short htail)

end Sys2Proof.Machine
end

section
/-! The rules of NEG and NOT (spec/43_neg_not.md R115 to R117): the two ALU operations as arithmetic on words, the two instructions,
and what two one-operand writes to the same register amount to. -/

namespace Sys2Proof.Machine

/-! ### The ALU -/

/-- NEG is the subtraction from zero, the negation of a word (43 R115). -/
theorem aluNeg_eq_neg (a : Word) : aluNeg a = -a :=
  calc aluNeg a
    _ = aluSub 0 a := rfl
    _ = 0 - a := aluSub_eq_sub 0 a
    _ = -a := BitVec.zero_sub a

theorem aluNeg_toNat (a : Word) : ((aluNeg a).toNat : Int) = (0 - (a.toNat : Int)) % 2 ^ 32 := u32_toNat _

theorem aluNot_toNat (a : Word) : (aluNot a).toNat = 0xFFFFFFFF - a.toNat := by
  rw [aluNot_eq_not, BitVec.toNat_not]

theorem aluNeg_involutive : Function.Involutive aluNeg := fun a => by
  rw [aluNeg_eq_neg, aluNeg_eq_neg, BitVec.neg_neg]

theorem aluNot_involutive : Function.Involutive aluNot := fun a => by
  rw [aluNot_eq_not, aluNot_eq_not, BitVec.not_not]

/-- `u32(~a + 1)` is the negation (43 R115). -/
theorem aluAdd_aluNot_one (a : Word) : aluAdd (aluNot a) 1 = aluNeg a := by
  rw [aluAdd_eq_add, aluNot_eq_not, aluNeg_eq_neg]
  exact (BitVec.neg_eq_not_add a).symm

/-! ### The instructions -/

/-- The faults that the two `F7` instructions share (43 R115, R116). -/
theorem faults_F7 : RejectsMemoryOperand 0xF7 ∧ ∀ sub : BitVec 3, sub ≠ 2#3 → sub ≠ 3#3 → RejectsSubOp 0xF7 sub :=
  ⟨memoryOperandRejected 0xF7 (by decide), fun _ => rejectsSubOp_F7⟩

/-- Settles O27: `0xD8` is `0xC0 + 8*3`. -/
theorem negRegRule : Obligations.NegRegRule := by
  refine ⟨fun d s => ⟨_, exec_negReg d s, ?_, writesOnly_advance_setReg s d _ 2⟩,
    fun d => decodesAs_directModRM (reg := 3#3) rfl rfl nofun nofun, faults_F7⟩
  rw [State.setReg_reg_same, aluNeg_toNat]

/-- Settles O28: `0xD0` is `0xC0 + 8*2`. -/
theorem notRegRule : Obligations.NotRegRule := by
  refine ⟨fun d s => ⟨_, exec_notReg d s, ?_, writesOnly_advance_setReg s d _ 2⟩,
    fun d => decodesAs_directModRM (reg := 2#3) rfl rfl nofun nofun, faults_F7⟩
  rw [State.setReg_reg_same, aluNot_toNat]

/-! ### Two writes to one register -/

@[simp] theorem Regs.set_set_same (x : Regs) (r : Reg) (v w : Word) : (x.set r v).set r w = x.set r w := by cases r <;> rfl

@[simp] theorem Regs.set_get_same (x : Regs) (r : Reg) : x.set r (x.get r) = x := by cases r <;> rfl

/-- Of two writes to one register, wherever the cursor moves, the second remains. -/
theorem regs_setReg_advance_setReg (s : State) (d : Reg) (v w : Word) (m n : Nat) :
    ((((s.advance m).setReg d v).advance n).setReg d w).regs = s.regs.set d w := Regs.set_set_same s.regs d v w

/-- A one-operand instruction whose operation is its own inverse restores the registers when it is executed again. -/
theorem execUnary_twice {f : Word → Word} (hf : Function.Involutive f) (n : Nat) (d : Reg) (s : State) :
    ∃ t u, execUnary f n (.reg d) s = .next t ∧ execUnary f n (.reg d) t = .next u ∧ u.regs = s.regs := by
  refine ⟨_, _, execUnary_reg f n d s, execUnary_reg f n d _, ?_⟩
  rw [regs_setReg_advance_setReg, State.setReg_reg_same, hf]
  exact Regs.set_get_same s.regs d

/-- NOT and then adding 1 leaves the registers that NEG leaves (43 R115, R116). -/
theorem exec_notReg_addRegImm_one (d : Reg) (s : State) :
    ∃ t u w, exec (.notReg d) s = .next t ∧ exec (.addRegImm d 1) t = .next u ∧ exec (.negReg d) s = .next w ∧
      u.regs = w.regs := by
  refine ⟨_, _, _, exec_notReg d s, exec_addRegImm d 1 _, exec_negReg d s, ?_⟩
  rw [regs_setReg_advance_setReg, State.setReg_reg_same, aluAdd_aluNot_one]
  rfl

/-- Settles O31: negation and complement are their own inverses, and `~a + 1` is `-a`. -/
theorem negNotIdentities : Obligations.NegNotIdentities := fun d s =>
  ⟨execUnary_twice aluNeg_involutive 2 d s, execUnary_twice aluNot_involutive 2 d s, exec_notReg_addRegImm_one d s⟩

end Sys2Proof.Machine
end

section
/-! The rule of POP (spec/44_pop.md R120). -/

namespace Sys2Proof

/-- The opcode of a PopReg as the number `0x58 + r` (30 R51). -/
theorem popOpcode_toNat (c : BitVec 3) : BitVec.ofNat 8 (0x58 + c.toNat) = 0b01011#5 ++ c := by
  revert c
  decide

end Sys2Proof

namespace Sys2Proof.Machine

/-- Settles O29: with an argument left the pop is a register write of one byte from the state whose argument is taken. -/
theorem popRegRule : Obligations.PopRegRule := by
  refine ⟨fun d s h => ?argument, fun d s h => ?exhausted, fun d => ?byte⟩
  case argument =>
    have hexec := execPopReg_some d (List.getElem?_eq_getElem h)
    obtain ⟨hregs, hpc, hargs, hargidx, hstatus, hresult, hfault, -⟩ :=
      writesOnly_advance_setReg s.takeArg d s.args[s.argidx] 1
    exact ⟨_, (exec_popReg d s).trans hexec, State.setReg_reg_same _ _ _, hregs, hargidx, hpc, hargs, hstatus, hresult, hfault,
      samePlatform_of_eq rfl rfl rfl⟩
  case exhausted =>
    have hexec := execPopReg_none d (List.getElem?_eq_none h)
    exact ⟨_, (exec_popReg d s).trans hexec, tookFault_advance_raise s 1 _⟩
  case byte =>
    rw [popOpcode_toNat]
    exact decodesAs_of_encode_eq rfl rfl nofun nofun

end Sys2Proof.Machine
end

section
/-! The rules of the faults (spec/60_exceptions.md R130 to R142): the codes and the entry, the rows of faulting encodings, where a
fetch can fail inside the loop, and the starts of a run that fail. -/

namespace Sys2Proof

/-! ### The fetches of the decoder -/

theorem decodeImm_error {off : Nat} {rest : List Byte} {k : Word → Instr} {e : DecodeStop} (h : decodeImm off rest k = .error e) :
    e = .short off 4 ∧ rest.length < 4 := by
  obtain ⟨hshort, hd⟩ | ⟨b0, b1, b2, b3, tail, -, hd⟩ := decodeImm_cases off rest k
  · cases hd.symm.trans h
    exact ⟨rfl, hshort⟩
  · cases hd.symm.trans h

/-- Once the ModRM byte is there, only what follows a register-direct one can fail (30 R57, R59). -/
theorem decodeModRM_error {m : Byte} {tail : List Byte} {low : BitVec 7 → Instr} {two : BitVec 6 → Instr}
    {direct : BitVec 3 → BitVec 3 → List Byte → Except DecodeStop Instr} {e : DecodeStop}
    (h : decodeModRM (m :: tail) low two direct = .error e) : direct (regField m) (rmField m) tail = .error e := by
  rw [decodeModRM_cons] at h
  split_ifs at h
  exact h

/-- Once two bytes are there, `decode()` fails only at an immediate: that of a MovRegImm, or that of an `81` instruction
(60 R135). The cases are those of the decode table (30 R60). -/
theorem decode_error {op m : Byte} {tail : List Byte} {off n : Nat} (h : decode (op :: m :: tail) = .error (.short off n)) :
    n = 4 ∧ (op :: m :: tail).length < off + 4 ∧ (off = 1 ∧ opHigh op = 0b10111#5 ∨ off = 2 ∧ op = 0x81#8) := by
  simp only [decode] at h
  split_ifs at h with h01 h29 h31 hpop h81 h89 hmov hF7
  · cases decodeModRM_error h
  · cases decodeModRM_error h
  · cases decodeModRM_error h
  · have himm : ∃ k, decodeImm 2 tail k = .error (.short off n) := by
      have hdirect := decodeModRM_error h
      split_ifs at hdirect
      · exact ⟨_, hdirect⟩
      · exact ⟨_, hdirect⟩
      · exact ⟨_, hdirect⟩
    obtain ⟨k, hk⟩ := himm
    obtain ⟨he, hlen⟩ := decodeImm_error hk
    cases he
    exact ⟨rfl, Nat.add_lt_add_right hlen 2, .inr ⟨rfl, h81⟩⟩
  · cases decodeModRM_error h
  · obtain ⟨he, hlen⟩ := decodeImm_error h
    cases he
    exact ⟨rfl, Nat.add_lt_add_right hlen 1, .inl ⟨rfl, hmov⟩⟩
  · have hdirect := decodeModRM_error h
    split_ifs at hdirect

end Sys2Proof

namespace Sys2Proof.Machine

/-! ### The record and the entry -/

/-- Settles O17. -/
theorem faultCodes : Obligations.FaultCodes := fun _ _ _ _ _ _ => ⟨rfl, rfl, rfl, rfl, rfl, rfl, rfl⟩

/-- Settles O18: the entry is the fault taken before any byte has been read. -/
theorem faultEntry : Obligations.FaultEntry := fun s f => ⟨tookFault_advance_raise s 0 f, rfl⟩

/-! ### The rows of faulting encodings -/

theorem tookFault_of_exec {i : Instr} {s : State} {n : Nat} {f : FaultRecord} (h : exec i s = .next ((s.advance n).raise f)) :
    ∃ t, exec i s = .next t ∧ TookFault s t f := ⟨_, h, tookFault_advance_raise s n f⟩

/-- The ModRM byte of a row for mod 0 or 1 is the row's field. -/
theorem append_low_eq_setWidth (x : BitVec 7) : 0#1 ++ x = x.setWidth 8 := by
  revert x
  decide

/-- The ModRM byte of a row for mod 2 is the row's field above `0x80`. -/
theorem append_two_eq_add (y : BitVec 6) : 2#2 ++ y = 0x80 + y.setWidth 8 := by
  revert y
  decide

/-- Settles O34: each row's equation, with the ModRM byte as a number. -/
theorem memoryOperandRows : Obligations.MemoryOperandRows := by
  intro s x y
  rw [← append_low_eq_setWidth, ← append_two_eq_add]
  exact ⟨tookFault_of_exec (exec_memLow01 x s), tookFault_of_exec (exec_memTwo01 y s),
    tookFault_of_exec (exec_memLow29 x s), tookFault_of_exec (exec_memTwo29 y s),
    tookFault_of_exec (exec_memLow31 x s), tookFault_of_exec (exec_memTwo31 y s),
    tookFault_of_exec (exec_memLow81 x s), tookFault_of_exec (exec_memTwo81 y s),
    tookFault_of_exec (exec_memLow89 x s), tookFault_of_exec (exec_memTwo89 y s),
    tookFault_of_exec (exec_memLowF7 x s), tookFault_of_exec (exec_memTwoF7 y s)⟩

/-- Settles O35. -/
theorem unsupportedOpcodeRows : Obligations.UnsupportedOpcodeRows := fun s sub rm op =>
  ⟨tookFault_of_exec (exec_badSub81 sub rm s), tookFault_of_exec (exec_badSubF7 sub rm s), tookFault_of_exec (exec_otherByte op s)⟩

/-! ### A fetch that fails inside the loop -/

/-- Settles O37. -/
theorem shortFetchTakesFault : Obligations.ShortFetchTakesFault := by
  intro s off n hrun hd
  refine ⟨_, ?_, tookFault_advance_raise s off _⟩
  rw [step_eq_runDecoded hrun, hd, runDecoded]

/-- No instruction fetches, so none takes FetchOutOfBounds: a marker or a register write takes no fault, a pop and the rows of
faulting encodings take others (60 R132 to R135). -/
theorem exec_fault_ne_fetchOutOfBounds {i : Instr} {s t : State} (hs : s.status = .running) (h : exec i s = .next t)
    (ht : t.status = .faulted) (a n : Nat) : t.fault ≠ .fetchOutOfBounds a n := by
  cases i with
  | prolog | epilog =>
    cases h
    cases ht
  | addRegReg | subRegReg | xorRegReg | movRegReg | addRegImm | subRegImm | xorRegImm | movRegImm | notReg | negReg =>
    cases h
    cases hs.symm.trans ht
  | popReg d =>
    rw [exec_popReg] at h
    cases harg : s.args[s.argidx]? with
    | some v =>
      cases (execPopReg_some d harg).symm.trans h
      cases hs.symm.trans ht
    | none =>
      cases (execPopReg_none d harg).symm.trans h
      nofun
  | memLow01 | memTwo01 | memLow29 | memTwo29 | memLow31 | memTwo31
  | memLow81 | memTwo81 | memLow89 | memTwo89 | memLowF7 | memTwoF7
  | badSub81 | badSubF7 | otherByte =>
    cases h
    nofun

/-- Where a fetch at a boundary can fail: at the epilog compare, or with the compare's four bytes there, at an immediate
(60 R135). -/
theorem boundary_short_cases {s : State} {off n : Nat}
    (h : decodeBoundary (s.mem.window s.pc maxInstrBytes) = .error (.short off n)) :
    n = 4 ∧ s.pc + off + 4 > s.mem.extent ∧
      (off = 0 ∨ s.pc + 4 ≤ s.mem.extent ∧
        ∃ op, s.mem.byteAt s.pc = some op ∧ (off = 1 ∧ opHigh op = 0b10111#5 ∨ off = 2 ∧ op = 0x81#8)) := by
  have hwindow := Memory.window_length s.mem s.pc maxInstrBytes
  rw [maxInstrBytes] at h hwindow
  obtain ⟨hlen, hd⟩ | ⟨-, -, hd⟩ | ⟨hlen, -, hd⟩ := decodeBoundary_cases (s.mem.window s.pc 6)
  · cases hd.symm.trans h
    exact ⟨rfl, by omega, .inl rfl⟩
  · cases hd.symm.trans h
  · have hfit : s.pc + 4 ≤ s.mem.extent := by omega
    have hop : s.mem.byteAt s.pc = some (lookupCell s.mem.cells s.pc) := Memory.byteAt_eq_some_iff.mpr ⟨by omega, rfl⟩
    rw [hd, Memory.window_succ_of_byteAt hop, Memory.window_succ_of_lt (by omega)] at h
    rw [Memory.window_succ_of_byteAt hop, Memory.window_succ_of_lt (by omega)] at hwindow
    obtain ⟨hn, hshort, hcases⟩ := decode_error h
    rw [hwindow] at hshort
    exact ⟨hn, by omega, .inr ⟨hfit, _, hop, hcases⟩⟩

/-- Settles O39: the fault is a short fetch's, since no instruction takes it. -/
theorem onlyBoundaryOrImmediateFetchFails : Obligations.OnlyBoundaryOrImmediateFetchFails := by
  rintro s t a n ⟨hstatus, hrequest⟩ h ht hfault
  rw [step_of_running hstatus hrequest] at h
  obtain ⟨i, -, he⟩ | ⟨off, k, hd, he⟩ := runStep_cases s
  · exact absurd hfault (exec_fault_ne_fetchOutOfBounds hstatus (he.symm.trans h) ht a n)
  · cases he.symm.trans h
    cases hfault
    obtain ⟨hn, hshort, rfl | ⟨hfit, op, hop, ⟨rfl, hmov⟩ | ⟨rfl, rfl⟩⟩⟩ := boundary_short_cases hd
    · exact ⟨hn, hshort, .inl rfl⟩
    · exact ⟨hn, hshort, .inr (.inl ⟨hfit, rfl, op, hop, (opHigh_mov_iff op).mp hmov⟩)⟩
    · exact ⟨hn, hshort, .inr (.inr ⟨hfit, rfl, hop⟩)⟩

/-! ### The starts that fail -/

/-- Settles O42: the start of a run resolves before it seeks. -/
theorem startUnresolved : Obligations.StartUnresolved := by
  intro s q hstatus hrequest hresolve
  rw [step_of_request hstatus hrequest]
  obtain ⟨-, he⟩ | ⟨p, hp, -⟩ := startRun_cases q s
  · exact ⟨_, he, runReset_of_eq rfl rfl rfl rfl rfl rfl, rfl, rfl, rfl⟩
  · cases hresolve.symm.trans hp

/-- Settles O44: one byte that differs is enough for the window not to be the prolog. -/
theorem startWithoutProlog : Obligations.StartWithoutProlog := by
  rintro s q p hstatus hrequest hresolve hfit ⟨k, hk, hbyte⟩
  have hne : s.mem.window p 20 ≠ prologBytes := fun h => hbyte (Memory.window_eq_iff (p := prologBytes).mp h k hk)
  obtain ⟨hshort, -⟩ | ⟨-, -, he⟩ | ⟨-, hprolog, -⟩ := step_start_cases hstatus hrequest hresolve
  · exact absurd hfit (Nat.not_le.mpr hshort)
  · exact ⟨_, he, runReset_of_eq rfl rfl rfl rfl rfl rfl, rfl, rfl, rfl⟩
  · exact absurd hprolog hne

end Sys2Proof.Machine
end

section
/-! The reset's rule (spec/70_reset_and_hazards.md R167): two instances over one platform run alike, whatever their pasts. The start
of a run overwrites all but the result latch and the fault record, which no instruction reads and which the end of the run writes
before the host does. -/

namespace Sys2Proof.Machine

/-! ### Runs that differ in what the past left -/

/-- The state with another result latch and fault record: all that a run in progress still holds of earlier runs. -/
def State.withLatches (s : State) (r : Word) (f : FaultRecord) : State := { s with result := r, fault := f }

/-- One run in two instances: while it is in progress they differ in the latches alone, and once it has ended the host reads the
same from both. -/
inductive SameRun : State → State → Prop
  | running {s : State} (hrun : Running s) (r : Word) (f : FaultRecord) : SameRun s (s.withLatches r f)
  | ended {s u : State} (hs : Ended s) (hu : Ended u) (houtcome : s.outcome = u.outcome) : SameRun s u

/-- Two answers of the machine that are next states of one run. -/
def AnswersAlike (x y : Result) : Prop := ∃ t w, x = .next t ∧ y = .next w ∧ SameRun t w

theorem SameRun.outcome_eq {s u : State} (h : SameRun s u) : s.outcome = u.outcome := by
  cases h with
  | running hrun r f =>
    obtain ⟨hstatus, -⟩ := hrun
    have hlatched : (s.withLatches r f).status = .running := hstatus
    rw [State.outcome, State.outcome, hstatus, hlatched]
  | ended _ _ houtcome => exact houtcome

/-- A fault's record is what the host reads of it. -/
theorem answersAlike_raise (s u : State) (f : FaultRecord) : AnswersAlike (.next (s.raise f)) (.next (u.raise f)) :=
  ⟨_, _, rfl, rfl, .ended (.inr rfl) (.inr rfl) rfl⟩

/-- States in which the run goes on, the latches apart. -/
theorem answersAlike_running {s : State} (h : Running s) (r : Word) (f : FaultRecord) :
    AnswersAlike (.next s) (.next (s.withLatches r f)) :=
  ⟨_, _, rfl, rfl, .running h r f⟩

/-- One register written behind the bytes read: the run goes on. -/
theorem answersAlike_write {s : State} (hrun : Running s) (r : Word) (f : FaultRecord) (n : Nat) (d : Reg) (v : Word) :
    AnswersAlike (.next ((s.advance n).setReg d v)) (.next (((s.withLatches r f).advance n).setReg d v)) :=
  answersAlike_running (s := (s.advance n).setReg d v) hrun r f

/-! ### One iteration -/

/-- No instruction reads a latch: the epilog and a fault write the one the host then reads, every other instruction leaves both
alone. -/
theorem exec_withLatches (i : Instr) {s : State} (hrun : Running s) (r : Word) (f : FaultRecord) :
    AnswersAlike (exec i s) (exec i (s.withLatches r f)) := by
  cases i with
  | prolog => exact answersAlike_running (s := (s.advance 20).begin) ⟨rfl, hrun.2⟩ r f
  | epilog => exact ⟨_, _, rfl, rfl, .ended (.inl rfl) (.inl rfl) rfl⟩
  | addRegReg | subRegReg | xorRegReg | movRegReg | addRegImm | subRegImm | xorRegImm | movRegImm | notReg | negReg =>
    exact answersAlike_write hrun r f _ _ _
  | popReg d =>
    rw [exec_popReg, exec_popReg]
    cases harg : s.args[s.argidx]? with
    | some v =>
      rw [execPopReg_some d harg, execPopReg_some (s := s.withLatches r f) d harg]
      exact answersAlike_write (s := s.takeArg) hrun r f 1 d v
    | none =>
      rw [execPopReg_none d harg, execPopReg_none (s := s.withLatches r f) d harg]
      exact answersAlike_raise _ _ _
  | memLow01 | memTwo01 | memLow29 | memTwo29 | memLow31 | memTwo31
  | memLow81 | memTwo81 | memLow89 | memTwo89 | memLowF7 | memTwoF7
  | badSub81 | badSubF7 | otherByte => exact answersAlike_raise _ _ _

/-- One iteration does not read them either: the decoder sees the image and the cursor only (40 R85). -/
theorem step_withLatches {s : State} (hrun : Running s) (r : Word) (f : FaultRecord) :
    AnswersAlike (step s) (step (s.withLatches r f)) := by
  have hlatched : step (s.withLatches r f) =
      runDecoded (s.withLatches r f) (decodeBoundary (s.mem.window s.pc maxInstrBytes)) :=
    step_eq_runDecoded (s := s.withLatches r f) hrun
  rw [step_eq_runDecoded hrun, hlatched]
  cases decodeBoundary (s.mem.window s.pc maxInstrBytes) with
  | ok i => exact exec_withLatches i hrun r f
  | error e =>
    cases e with
    | short off n => exact answersAlike_raise _ _ _

/-! ### The run as a whole -/

theorem runToEnd_succ_of_step {s t : State} (hrun : Running s) (h : step s = .next t) (n : Nat) :
    runToEnd (n + 1) s = runToEnd n t := by
  rw [runToEnd, hrun.1, h]

/-- As many steps of one run answer alike. -/
theorem runToEnd_sameRun (n : Nat) {s u : State} (h : SameRun s u) : AnswersAlike (runToEnd n s) (runToEnd n u) := by
  induction n generalizing s u with
  | zero => exact ⟨s, u, rfl, rfl, h⟩
  | succ n ih =>
    cases h with
    | running hrun r f =>
      obtain ⟨t, w, ht, hw, hsame⟩ := step_withLatches hrun r f
      rw [runToEnd_succ_of_step hrun ht, runToEnd_succ_of_step (s := s.withLatches r f) hrun hw]
      exact ih hsame
    | ended hs hu houtcome =>
      rw [runToEnd_of_ended hs, runToEnd_of_ended hu]
      exact ⟨s, u, rfl, rfl, .ended hs hu houtcome⟩

/-- The start of a run overwrites what the past left, the latches apart (10 R22). -/
theorem started_eq_withLatches {s u : State} (hmem : s.mem = u.mem) (hresolve : s.resolve = u.resolve) (args : List Word)
    (p : Nat) :
    (((u.runReset args).seek p).advance 20).begin =
      (((s.runReset args).seek p).advance 20).begin.withLatches u.result u.fault := by
  cases s
  cases u
  cases hmem
  cases hresolve
  rfl

/-- The start of a run decides by the platform and the request alone (40 R94, the first four rows). -/
theorem startRun_samePlatform {s u : State} (hmem : s.mem = u.mem) (hresolve : s.resolve = u.resolve) (q : Request) :
    AnswersAlike (startRun q s) (startRun q u) := by
  have hpeek (p : Nat) :
      peek prologBytes ((u.runReset q.args).seek p) = peek prologBytes ((s.runReset q.args).seek p) := by
    simp [peek, hmem]
  simp only [startRun, ← hresolve, hpeek]
  cases resolveRva s.resolve q.startRva with
  | none => exact answersAlike_raise _ _ _
  | some p =>
    dsimp only
    cases peek prologBytes ((s.runReset q.args).seek p) with
    | error f => exact answersAlike_raise _ _ _
    | ok matched =>
      cases matched with
      | false => exact answersAlike_raise _ _ _
      | true =>
        dsimp only
        rw [exec_prolog, exec_prolog, started_eq_withLatches hmem hresolve]
        exact answersAlike_running ⟨rfl, rfl⟩ _ _

/-- The first step of `emulate`: the accepted request starts the run (40 R94). -/
theorem step_submit {s : State} (h : s.status ≠ .running) (q : Request) : step (s.submit q) = startRun q (s.submit q) :=
  step_of_request (s := s.submit q) h rfl

/-- Outside a run `emulate` steps from the start it makes, as often as the platform's image bounds it (40 R91). -/
theorem emulate_of_start {s t : State} {rva : Rva} {args : List Word} (h : s.status ≠ .running)
    (ht : startRun ⟨rva, args⟩ (s.submit ⟨rva, args⟩) = .next t) :
    emulate rva args s = runToEnd (s.mem.extent + 1) t := by
  have hmem : t.mem = s.mem := (startRun_keeps_platform ht).1
  rw [emulate, step_submit h, ht, ← hmem]

/-- Settles O60: both runs start alike, so they end alike. -/
theorem emulateIgnoresThePast : Obligations.EmulateIgnoresThePast := by
  intro rva args s u hs hu hmem hresolve
  obtain ⟨t, w, ht, hw, hstart⟩ := startRun_samePlatform (s := s.submit ⟨rva, args⟩) (u := u.submit ⟨rva, args⟩) hmem hresolve
    ⟨rva, args⟩
  rw [emulate_of_start hs ht, emulate_of_start hu hw, ← hmem]
  obtain ⟨t', w', ht', hw', hend⟩ := runToEnd_sameRun (s.mem.extent + 1) hstart
  exact ⟨t', w', ht', hw', hend.outcome_eq⟩

end Sys2Proof.Machine
end
